-- ==== Sys2Proof/Word.lean ====
section
/-! DEFINITION. The word types of the QOI codec core (spec 00_scope.md R4, R5, R8). -/

namespace Sys2Proof

/-- A byte, 8 bits (R5). -/
abbrev Byte := BitVec 8

/-- A host register, a counter, a pointer or a packed pixel: 32 bits (R4, R8). -/
abbrev Word := BitVec 32

/-- A cache slot number, 6 bits, 0..63 (R33). -/
abbrev Slot := BitVec 6

end Sys2Proof
end

