-- ==== Sys2Proof/Config.lean ====
section
/-! DEFINITION. The fixed parameters of the core (spec 00_scope.md R4) and the values the spec leaves open. -/

namespace Sys2Proof.Config

/-- The previous pixel before the first one, (0,0,0,255) packed (R4 `PX_INIT`). -/
def pxInit : Word := 0x000000FF#32

/-- What every cache slot holds when an operation starts (R4 `CACHE_INIT`). -/
def cacheInit : Word := 0x00000000#32

/-- The longest run one RUN chunk covers (R4 `RUN_MAX`). -/
def runMax : Nat := 62

/-- A header is legal only below this many pixels (R4 `MAX_PIXELS`). -/
def maxPixels : Nat := 400000000

/-- R4 `HEADER_BYTES`. -/
def headerBytes : Nat := 14

/-- R4 `MIN_STREAM`: header and end marker. -/
def minStream : Nat := 22

/-- R4 `MAGIC`, "qoif" as one big-endian word. PRESUMED (log entry 19): the ASCII byte values. -/
def magic : Word := 0x716F6966#32

/-- The 8 bytes that close a stream (R4 `END_MARKER`, R55). -/
def endMarker : List Byte := [0, 0, 0, 0, 0, 0, 0, 1]

/-- The size of SRC and of DST in bytes (R4, R35). -/
def addressSpace : Nat := 4294967296

/-- R4 `STEP_TIME`: the spec's open timing parameter, which no rule reads (log entry 16). -/
opaque stepTime : Nat

/-- What CEND is latched as where SRC_LEN - 8 is negative, by SRC_LEN (log entry 23). Nothing constrains it. -/
opaque freeChunkEnd : Word → Word

/-- A free byte: draw number, then address (log entries 6 to 8). Nothing constrains it. -/
opaque freeByte : Nat → Nat → Byte

/-- A free word: draw number, then which register or slot takes it (log entries 4 and 23). Nothing constrains it. -/
opaque freeWord : Nat → Nat → Word

end Sys2Proof.Config
end

