-- ==== Sys2Proof/Syntax.lean ====
section
/-! DEFINITION. The instruction set: the six QOI chunk opcodes (spec opcode_table.json, 30_encoding.md R58 to R63),
with the operands of the spec's own assembler syntax (R67; log entry 21). -/

namespace Sys2Proof

/-- One chunk of the stream. -/
inductive Instr where
  /-- `RGB r, g, b` (R62). -/
  | rgb (r g b : Byte)
  /-- `RGBA r, g, b, a` (R63). -/
  | rgba (r g b a : Byte)
  /-- `INDEX k`, k a cache slot 0..63 (R58). -/
  | index (k : Slot)
  /-- `DIFF dr, dg, db`, each -2..1 (R59). -/
  | diff (dr dg db : Int)
  /-- `LUMA dg, dr_g, db_g`: dg -32..31, the other two -8..7 (R60). -/
  | luma (dg drg dbg : Int)
  /-- `RUN n`, n the pixel count 1..62 (R61). -/
  | run (n : Nat)
  deriving DecidableEq, Repr

/-- The six classes of a chunk (R56). -/
inductive ChunkClass where
  | rgb | rgba | index | diff | luma | run
  deriving DecidableEq, Repr

/-- The class an instruction belongs to. -/
def Instr.chunkClass : Instr → ChunkClass
  | .rgb _ _ _ => .rgb
  | .rgba _ _ _ _ => .rgba
  | .index _ => .index
  | .diff _ _ _ => .diff
  | .luma _ _ _ => .luma
  | .run _ => .run

end Sys2Proof
end

