-- ==== Sys2Proof/Decode.lean ====
section
/-! DEFINITION. Decoding and encoding of chunks (spec 30_encoding.md R56 to R65, opcode_table.json). -/

namespace Sys2Proof

/-- Why bytes do not decode. No chunk encoding is illegal (R65): only missing bytes are rejected. -/
inductive DecodeError where
  /-- There is no first byte. -/
  | empty
  /-- The first byte's chunk is longer than the bytes given. -/
  | truncated
  deriving DecidableEq, Repr

/-- R56 `Class(b1)`: the two 8-bit tags before the 2-bit tags. -/
def classOf (b1 : Byte) : ChunkClass :=
  if b1 = 0xFE#8 then .rgb
  else if b1 = 0xFF#8 then .rgba
  else if b1.extractLsb' 6 2 = 0b00#2 then .index
  else if b1.extractLsb' 6 2 = 0b01#2 then .diff
  else if b1.extractLsb' 6 2 = 0b10#2 then .luma
  else .run

/-- R57: the length in bytes of a chunk of a class. -/
def ChunkClass.length : ChunkClass → Nat
  | .rgb => 4
  | .rgba => 5
  | .index => 1
  | .diff => 1
  | .luma => 2
  | .run => 1

/-- R57: the length in bytes of an instruction's chunk. -/
def Instr.length (i : Instr) : Nat := i.chunkClass.length

/-- R64: the unsigned bit field of `len` bits from bit `lo` of `b`. -/
def fieldAt (b : Byte) (lo len : Nat) : Nat := (b.extractLsb' lo len).toNat

/-- R64: a signed operand is an unsigned field less a fixed bias. -/
def biasedAt (b : Byte) (lo len bias : Nat) : Int := (fieldAt b lo len : Int) - bias

/-- The instruction at the head of a list of bytes, and the bytes after it. -/
def decode : List Byte → Except DecodeError (Instr × List Byte)
  | [] => .error .empty
  | b1 :: rest =>
    match classOf b1, rest with
    | .rgb, r :: g :: b :: rest => .ok (.rgb r g b, rest)
    | .rgb, _ => .error .truncated
    | .rgba, r :: g :: b :: a :: rest => .ok (.rgba r g b a, rest)
    | .rgba, _ => .error .truncated
    | .index, rest => .ok (.index (b1.extractLsb' 0 6), rest)
    | .diff, rest => .ok (.diff (biasedAt b1 4 2 2) (biasedAt b1 2 2 2) (biasedAt b1 0 2 2), rest)
    | .luma, b2 :: rest => .ok (.luma (biasedAt b1 0 6 32) (biasedAt b2 4 4 8) (biasedAt b2 0 4 8), rest)
    | .luma, [] => .error .truncated
    | .run, rest => .ok (.run (fieldAt b1 0 6 + 1), rest)

/-- The bytes of an instruction (R58 to R63, R67). -/
def encode : Instr → List Byte
  | .rgb r g b => [0xFE#8, r, g, b]
  | .rgba r g b a => [0xFF#8, r, g, b, a]
  | .index k => [0b00#2 ++ k]
  | .diff dr dg db =>
    [0b01#2 ++ BitVec.ofInt 2 (dr + 2) ++ BitVec.ofInt 2 (dg + 2) ++ BitVec.ofInt 2 (db + 2)]
  | .luma dg drg dbg =>
    [0b10#2 ++ BitVec.ofInt 6 (dg + 32), BitVec.ofInt 4 (drg + 8) ++ BitVec.ofInt 4 (dbg + 8)]
  | .run n => [0b11#2 ++ BitVec.ofNat 6 (n - 1)]

/-- The first `n` bytes of a number that holds its first byte in bits 7..0, the next in bits 15..8, and so on. -/
def bytesOfNat : Nat → Nat → List Byte
  | 0, _ => []
  | n + 1, w => BitVec.ofNat 8 w :: bytesOfNat n (w / 256)

/-- The bytes of an opcode-table word of `nbits` bits, with zeros up to the longest chunk (5 bytes). -/
def tableBytes (nbits w : Nat) : List Byte := bytesOfNat 5 (w % 2 ^ nbits)

/-- What the decoder reads from a word numbered as opcode_table.json numbers it. -/
def decodeTableWord (nbits w : Nat) : Option Instr :=
  match decode (tableBytes nbits w) with
  | .ok (i, _) => some i
  | .error _ => none

end Sys2Proof
end

