-- ==== Sys2Proof/Machine/State.lean ====
section
/-! DEFINITION. The state of the core (spec 10_state.md R10, 20_memory.md R35 to R37), the reasons a step can stop,
and the state right after reset (70_reset_and_hazards.md R127). -/

namespace Sys2Proof.Machine

/-- A byte memory: (address, byte) pairs in one canonical form (Memory.wf). An unlisted address reads 0 (log entry 5). -/
abbrev Memory := List Host.Cell

/-- Addresses `lo ..< hi` whose bytes are unspecified: free values of draw number `draw` (log entry 6). -/
structure Span where
  lo : Nat
  hi : Nat
  draw : Nat
  deriving DecidableEq, Repr

/-- DST (R37): the bytes it holds, and the spans whose bytes an operation cut short by reset left unspecified
(93_implementation_defined.md S3). -/
structure DstMemory where
  cells : Memory
  unknown : List Span
  deriving DecidableEq, Repr

/-- R24: the seven states of the state machine. -/
inductive Fsm where
  | idle | eHdr | ePix | eEnd | dPix | done | error
  deriving DecidableEq, Repr

/-- R109: the six values of ERR_CODE.CODE (log entry 22). -/
inductive ErrorCode where
  | none | invalidHeader | bufferTooShort | nullInput | lengthMismatch | badRequest
  deriving DecidableEq, Repr

/-- One action of the host (R11, R35, R127; log entry 1). `size` is the width of a register access in bytes. -/
inductive HostEvent where
  /-- The host does nothing in this step: the core takes its own. -/
  | wait
  /-- Reset is asserted (R127). -/
  | reset
  /-- RegRead (R11). -/
  | regRead (size : Nat) (off : Word)
  /-- RegWrite (R11). -/
  | regWrite (size : Nat) (off v : Word)
  /-- The host reads one byte of SRC (R35). -/
  | srcRead (a : Word)
  /-- The host writes one byte of SRC (R35). -/
  | srcWrite (a : Word) (v : Byte)
  /-- The host reads one byte of DST (R35). -/
  | dstRead (a : Word)
  deriving DecidableEq, Repr

/-- Why the machine stops with a fault. Neither is reachable from an accepted start (R45, R118; Safety.Inv). -/
inductive Fault where
  /-- The core reads SRC outside its 2^32 bytes (R35, R36; log entry 11). Raised by the fetch of a chunk and by E_PIX. Safe. -/
  | srcAddress
  /-- The core writes DST outside its 2^32 bytes (R35, R37; log entry 11). Raised by every emission. Safe. -/
  | dstAddress
  deriving DecidableEq, Repr

/-- Why a step is given no meaning. -/
inductive Refusal where
  /-- An instruction without a meaning yet. Raised by exec's arms only. Safe. -/
  | notModelled (mnemonic : String)
  /-- A register access that is not 32-bit or not at a multiple of 4 (R11, D30, 93 S7; log entry 10). Raised by the host port. Safe. -/
  | registerAccess
  /-- The host writes SRC while BUSY (R47 (c), D20, 93 S4; log entry 9). Raised by the host port. Safe. -/
  | srcWriteWhileBusy
  deriving DecidableEq, Repr

/-- R10: the complete state of the core; the last three fields are the model's own (log entries 1 and 4).
CTRL holds no value (R12); STATUS is a view of `fsm` (R13) and DST_LEN a view of `wp` (R21). -/
structure State where
  /-- R24. -/
  fsm : Fsm
  /-- ERR_CODE (R14). -/
  errCode : ErrorCode
  /-- WIDTH (R15). -/
  width : Word
  /-- HEIGHT (R16). -/
  height : Word
  /-- CHANNELS[7:0] (R17). -/
  channels : Byte
  /-- COLORSPACE[7:0] (R18). -/
  colorspace : Byte
  /-- DESIRED_CHANNELS[7:0] (R19). -/
  desiredChannels : Byte
  /-- SRC_LEN (R20). -/
  srcLen : Word
  /-- R26: the current pixel, packed. -/
  px : Word
  /-- R27: the encoder's previous pixel, packed. -/
  pxPrev : Word
  /-- R28. -/
  run : BitVec 6
  /-- R29: pixels already processed. -/
  i : Word
  /-- R30: the next SRC byte to read. -/
  rp : Word
  /-- R31: the next DST byte to write. -/
  wp : Word
  /-- R32: the pixel count N. -/
  n : Word
  /-- R32: the encoder's input channel count CH. -/
  ch : Byte
  /-- R32: the decoder's output channel count OC. -/
  oc : Byte
  /-- R32: the decoder's end-of-chunks bound CEND. -/
  cend : Word
  /-- R33. -/
  cache : Vector Word 64
  /-- R36. -/
  src : Memory
  /-- R37. -/
  dst : DstMemory
  /-- The host's actions to come, the next one first (the model's own). -/
  inbox : List HostEvent
  /-- What the last host read returned (the model's own). -/
  readData : Option Word
  /-- How many free values have been drawn (the model's own). -/
  draws : Nat
  deriving DecidableEq, Repr

/-- The machine right after reset (R127 and its table). `px`, `pxPrev`, `run`, `i`, `rp`, `n`, `ch`, `oc`, `cend` and the
cache are unspecified there: 0 is the model's choice (DESIGN CHOICE, log entry 3). -/
def State.reset : State where
  fsm := .idle
  errCode := .none
  width := 0
  height := 0
  channels := 0
  colorspace := 0
  desiredChannels := 0
  srcLen := 0
  px := 0
  pxPrev := 0
  run := 0
  i := 0
  rp := 0
  wp := 0
  n := 0
  ch := 0
  oc := 0
  cend := 0
  cache := Vector.replicate 64 0
  src := []
  dst := { cells := [], unknown := [] }
  inbox := []
  readData := none
  draws := 0

/-- What one step answers. -/
abbrev Result := Host.Outcome State Fault Refusal

end Sys2Proof.Machine
end

