-- ==== Sys2Proof/Machine/Memory.lean ====
section
/-! DEFINITION. Byte memories (spec 20_memory.md R36, R37): one read, one write, and wider accesses built from them. -/

namespace Sys2Proof.Machine

/-- What an address that nothing has written reads as. DESIGN CHOICE (log entry 5). -/
def Memory.unlisted : Byte := 0#8

/-- One byte of a memory. -/
def Memory.get : Memory → Nat → Byte
  | [], _ => Memory.unlisted
  | (k, v) :: m, a => if a = k then v else Memory.get m a

/-- Write one byte, keeping the canonical form. -/
def Memory.set : Memory → Nat → Byte → Memory
  | [], a, v => if v = Memory.unlisted then [] else [(a, v)]
  | (k, w) :: m, a, v =>
    if a < k then (if v = Memory.unlisted then (k, w) :: m else (a, v) :: (k, w) :: m)
    else if a = k then (if v = Memory.unlisted then m else (a, v) :: m)
    else (k, w) :: Memory.set m a v

/-- Write bytes at ascending addresses from `a`. -/
def Memory.setBytes (m : Memory) (a : Nat) : List Byte → Memory
  | [] => m
  | b :: bs => Memory.setBytes (m.set a b) (a + 1) bs

/-- Read `len` bytes at ascending addresses from `a`. -/
def Memory.getBytes (m : Memory) : Nat → Nat → List Byte
  | _, 0 => []
  | a, len + 1 => m.get a :: m.getBytes (a + 1) len

/-- R6 `BE32`: four bytes as one big-endian word. -/
def be32 (b0 b1 b2 b3 : Byte) : Word := b0 ++ b1 ++ b2 ++ b3

/-- R36 `MemRead(SRC, a, 4)`. -/
def Memory.getBe32 (m : Memory) (a : Nat) : Word := be32 (m.get a) (m.get (a + 1)) (m.get (a + 2)) (m.get (a + 3))

/-- R37: the bytes of a word, the most significant first. -/
def wordBytes (v : Word) : List Byte :=
  [v.extractLsb' 24 8, v.extractLsb' 16 8, v.extractLsb' 8 8, v.extractLsb' 0 8]

/-- The canonical form from address `lo` on: addresses strictly rising and inside the space, no listed 0. -/
def Memory.wfFrom : Nat → Memory → Bool
  | _, [] => true
  | lo, (k, v) :: m =>
    decide (lo ≤ k) && decide (k < Config.addressSpace) && decide (v ≠ Memory.unlisted) && Memory.wfFrom (k + 1) m

/-- The canonical form of a memory. -/
def Memory.wf (m : Memory) : Bool := Memory.wfFrom 0 m

/-- Forget the cells below address `b`. -/
def Memory.dropBelow (b : Nat) (m : Memory) : Memory := m.filter (fun c => decide (b ≤ c.1))

/-- The draw that fills address `a`, if `a` lies in a span. -/
def spanDraw : List Span → Nat → Option Nat
  | [], _ => none
  | u :: us, a => if u.lo ≤ a ∧ a < u.hi then some u.draw else spanDraw us a

/-- A span from `lo` to `hi`, left out where it is empty. -/
def spanOf (lo hi draw : Nat) : List Span := if lo < hi then [{ lo := lo, hi := hi, draw := draw }] else []

/-- Take address `a` out of every span: it has been written. -/
def spansWithout (a : Nat) : List Span → List Span
  | [] => []
  | u :: us =>
    (if u.lo ≤ a ∧ a < u.hi then spanOf u.lo a u.draw ++ spanOf (a + 1) u.hi u.draw else [u]) ++ spansWithout a us

/-- Take the addresses below `b` out of every span. -/
def spansFrom (b : Nat) : List Span → List Span
  | [] => []
  | u :: us => spanOf (max u.lo b) u.hi u.draw ++ spansFrom b us

/-- The canonical form of a list of spans from address `lo` on: rising, apart, none empty, inside the space. -/
def spansWfFrom : Nat → List Span → Bool
  | _, [] => true
  | lo, u :: us =>
    decide (lo ≤ u.lo) && decide (u.lo < u.hi) && decide (u.hi ≤ Config.addressSpace) && spansWfFrom u.hi us

/-- One byte of DST: a free value where a cut operation left it unspecified (93 S3, log entry 6). -/
def DstMemory.get (d : DstMemory) (a : Nat) : Byte :=
  match spanDraw d.unknown a with
  | some k => Config.freeByte k a
  | none => d.cells.get a

/-- R37 `MemWrite(DST, a, 1, v)`. -/
def DstMemory.set (d : DstMemory) (a : Nat) (v : Byte) : DstMemory :=
  { cells := d.cells.set a v, unknown := spansWithout a d.unknown }

/-- R37 `MemWrite` of several bytes, the list's first at the lowest address. -/
def DstMemory.setBytes (d : DstMemory) (a : Nat) : List Byte → DstMemory
  | [] => d
  | b :: bs => (d.set a b).setBytes (a + 1) bs

/-- 93 S3: the bytes below `b` become free values of draw number `k`. -/
def DstMemory.cutBelow (d : DstMemory) (b k : Nat) : DstMemory :=
  { cells := d.cells.dropBelow b, unknown := spanOf 0 b k ++ spansFrom b d.unknown }

/-- The canonical form of DST: both lists canonical, and no cell listed inside a span. -/
def DstMemory.wf (d : DstMemory) : Bool :=
  d.cells.wf && spansWfFrom 0 d.unknown && d.cells.all (fun c => (spanDraw d.unknown c.1).isNone)

end Sys2Proof.Machine
end

