-- ==== Sys2Proof/Machine/Operands.lean ====
section
/-! DEFINITION. Pixels: packing, channel arithmetic and the hash (spec 40_pixel_cache.md R69 to R77). -/

namespace Sys2Proof.Machine

/-- R69 `pack(r, g, b, a)`. -/
def pack (r g b a : Byte) : Word := r ++ g ++ b ++ a

/-- R70: channel r of a packed pixel. -/
def red (p : Word) : Byte := p.extractLsb' 24 8

/-- R70: channel g of a packed pixel. -/
def green (p : Word) : Byte := p.extractLsb' 16 8

/-- R70: channel b of a packed pixel. -/
def blue (p : Word) : Byte := p.extractLsb' 8 8

/-- R70: channel a of a packed pixel. -/
def alpha (p : Word) : Byte := p.extractLsb' 0 8

/-- R74 `Delta(c, p) = sext_8(u8(c - p))`. -/
def delta (c p : Byte) : Int := (c - p).toInt

/-- R74: `u8(c + d)`, the channel moved by `d` modulo 256. -/
def moved (c : Byte) (d : Int) : Byte := BitVec.ofInt 8 (c.toNat + d)

/-- R75: the lanes r, g, b each moved modulo 256, with no carry between lanes; the lane a kept. -/
def shiftPixel (p : Word) (dr dg db : Int) : Word :=
  pack (moved (red p) dr) (moved (green p) dg) (moved (blue p) db) (alpha p)

/-- R76, on exact integers. -/
def pixelHash (p : Word) : Slot :=
  BitVec.ofNat 6 ((red p).toNat * 3 + (green p).toNat * 5 + (blue p).toNat * 7 + (alpha p).toNat * 11)

/-- R72: the pixel unit of `ch` bytes at address `a` of SRC as a packed pixel; alpha 255 unless there are 4 channels. -/
def assemble (src : Memory) (a : Nat) (ch : Byte) : Word :=
  pack (src.get a) (src.get (a + 1)) (src.get (a + 2)) (if ch = 4#8 then src.get (a + 3) else 255#8)

/-- R72: how many bytes of SRC `assemble` reads. -/
def unitBytes (ch : Byte) : Nat := if ch = 4#8 then 4 else 3

/-- R73: the bytes the output packer writes for a pixel. -/
def pixelBytes (p : Word) (oc : Byte) : List Byte :=
  [red p, green p, blue p] ++ (if oc = 4#8 then [alpha p] else [])

end Sys2Proof.Machine
end

