-- ==== Sys2Proof/Machine/Flags.lean ====
section
/-! DEFINITION. The STATUS bits and the done signal (spec 10_state.md R13, R23, 60_exceptions.md R120), the codes of
ERR_CODE (R109). No chunk sets a flag. -/

namespace Sys2Proof.Machine

/-- R13: BUSY is 1 exactly in E_HDR, E_PIX, E_END and D_PIX. -/
def Fsm.busy : Fsm → Bool
  | .eHdr => true
  | .ePix => true
  | .eEnd => true
  | .dPix => true
  | .idle => false
  | .done => false
  | .error => false

/-- STATUS.BUSY (R13). -/
def State.busy (s : State) : Bool := s.fsm.busy

/-- STATUS.DONE (R13). -/
def State.doneBit (s : State) : Bool := decide (s.fsm = .done)

/-- STATUS.ERR (R13). -/
def State.errBit (s : State) : Bool := decide (s.fsm = .error)

/-- STATUS as a word (R13): BUSY in bit 0, DONE in bit 1, ERR in bit 2, the rest 0. -/
def State.statusWord (s : State) : Word :=
  0#29 ++ BitVec.ofBool s.errBit ++ BitVec.ofBool s.doneBit ++ BitVec.ofBool s.busy

/-- The `done` output signal (R120). -/
def State.doneSignal (s : State) : Bool := s.doneBit || s.errBit

/-- R109: the numeric value of an error code. -/
def ErrorCode.code : ErrorCode → Byte
  | .none => 0
  | .invalidHeader => 1
  | .bufferTooShort => 2
  | .nullInput => 3
  | .lengthMismatch => 4
  | .badRequest => 5

end Sys2Proof.Machine
end

