-- ==== Sys2Proof/Machine/Ops.lean ====
section
/-! DEFINITION. The shared operations: the cache, DST emission, the end of a pixel's step, error entry, the start of an
operation, reset, and the fetch of a chunk. -/

namespace Sys2Proof.Machine

/-- Go on from a next state; a fault or a refusal stays. -/
def andThen (o : Result) (f : State → Result) : Result :=
  match o with
  | .next s => f s
  | .fault r => .fault r
  | .refused r => .refused r

/-- R78 `CacheRead(k)`. -/
def State.cacheRead (s : State) (k : Slot) : Word := s.cache[k.toNat]'(k.isLt)

/-- R79 `CacheWrite(k, v)`. -/
def State.cacheWrite (k : Slot) (v : Word) (s : State) : State :=
  { s with cache := s.cache.set k.toNat v k.isLt }

/-- R37 `MemWrite(DST, a, …)`: the bytes at ascending addresses from `a`. Outside the space: a fault (log entry 11). -/
def writeDst (a : Nat) (bs : List Byte) (s : State) : Result :=
  if a + bs.length ≤ Config.addressSpace then .next { s with dst := s.dst.setBytes a bs } else .fault .dstAddress

/-- Bytes written at `wp`, which moves past them (R31, R46). -/
def putBytes (bs : List Byte) (s : State) : Result :=
  andThen (writeDst s.wp.toNat bs s) (fun t => .next { t with wp := t.wp + BitVec.ofNat 32 bs.length })

/-- R73 `Emit(px, OC)`. -/
def emitPixel (s : State) : Result :=
  andThen (writeDst s.wp.toNat (pixelBytes s.px s.oc) s) (fun t => .next { t with wp := t.wp + t.oc.setWidth 32 })

/-- The end of a D_PIX step (R95): `i <- i + 1; if i = N: FSM <- DONE`. -/
def advancePixel (s : State) : State :=
  { s with i := s.i + 1, fsm := if s.i + 1 = s.n then .done else s.fsm }

/-- What every D_PIX step ends with (R95, R105). -/
def retirePixel (s : State) : Result := andThen (emitPixel s) (fun t => .next (advancePixel t))

/-- A chunk of `len` bytes that makes `p` the current pixel: `rp` moves past it (R57), `px` takes `p` (R95). -/
def takeChunk (len : Nat) (p : Word) (s : State) : State :=
  { s with rp := s.rp + BitVec.ofNat 32 len, px := p }

/-- R104: the resulting `px` into its slot. -/
def storePixel (s : State) : State := s.cacheWrite (pixelHash s.px) s.px

/-- The whole D_PIX step of a chunk that writes the cache: every class but INDEX (R95, R104). -/
def storingChunk (len : Nat) (p : Word) (s : State) : Result := retirePixel (storePixel (takeChunk len p s))

/-- Entry into ERROR (R117 `raise Error(code)`): this hardware's only exception entry. No pc or status is saved, there is
no handler, and nothing returns from it: ERROR is left by a new start or by reset (R119). -/
def raiseError (c : ErrorCode) (s : State) : State := { s with errCode := c, wp := 0, fsm := .error }

/-- What an accepted start initialises, in one action (R34), with the read pointer it starts from. It also ends ERROR (R119). -/
def beginOperation (rp : Word) (s : State) : State :=
  { s with
    cache := Vector.replicate 64 Config.cacheInit, px := Config.pxInit, pxPrev := Config.pxInit,
    run := 0, i := 0, wp := 0, errCode := .none, rp := rp }

/-- 93 S3: how many bytes of DST the running operation may have written; 0 when none runs. -/
def cutBound (s : State) : Nat :=
  match s.fsm with
  | .eHdr => 5 * s.n.toNat + 22
  | .ePix => 5 * s.n.toNat + 22
  | .eEnd => 5 * s.n.toNat + 22
  | .dPix => s.n.toNat * s.oc.toNat
  | .idle => 0
  | .done => 0
  | .error => 0

/-- Reset (R127). SRC is kept; DST is kept but for the bytes a cut operation may have written (93 S3). What the rule
leaves unspecified becomes a free value (93 S1, S2; log entries 4 and 6). -/
def resetMachine (s : State) : State :=
  { fsm := .idle, errCode := .none, width := 0, height := 0, channels := 0, colorspace := 0, desiredChannels := 0,
    srcLen := 0, wp := 0,
    px := Config.freeWord s.draws 0, pxPrev := Config.freeWord s.draws 1,
    run := (Config.freeWord s.draws 2).setWidth 6, i := Config.freeWord s.draws 3, rp := Config.freeWord s.draws 4,
    n := Config.freeWord s.draws 5, ch := (Config.freeWord s.draws 6).setWidth 8,
    oc := (Config.freeWord s.draws 7).setWidth 8, cend := Config.freeWord s.draws 8,
    cache := Vector.ofFn (fun k => Config.freeWord s.draws (9 + k.val)),
    src := s.src, dst := s.dst.cutBelow (min (cutBound s) Config.addressSpace) s.draws,
    inbox := s.inbox, readData := s.readData, draws := s.draws + 1 }

/-- R54 `HeaderFieldsValid`, on exact integers. -/
def headerFieldsValid (w h : Word) (ch cs : Byte) : Bool :=
  decide (0 < w.toNat) && decide (0 < h.toNat) && (decide (ch = 3#8) || decide (ch = 4#8)) &&
    (decide (cs = 0#8) || decide (cs = 1#8)) && decide (w.toNat * h.toNat < Config.maxPixels)

/-- R54 `HeaderValid`. -/
def headerValid (magic w h : Word) (ch cs : Byte) : Bool :=
  decide (magic = Config.magic) && headerFieldsValid w h ch cs

/-- R53: the 14 bytes of a header. -/
def headerOf (w h : Word) (ch cs : Byte) : List Byte :=
  wordBytes Config.magic ++ wordBytes w ++ wordBytes h ++ [ch, cs]

/-- The bytes of the chunk at `rp` (R95): its first byte gives its length (R57). A byte outside SRC is missing. -/
def chunkBytes (s : State) : List Byte :=
  s.src.getBytes s.rp.toNat
    (min (classOf (s.src.get s.rp.toNat)).length (Config.addressSpace - s.rp.toNat))

/-- The chunk at `rp`. It fails only where a payload byte would lie outside the address space of SRC (R65; log entry 11). -/
def fetchChunk (s : State) : Except Fault Instr :=
  match decode (chunkBytes s) with
  | .ok (i, _) => .ok i
  | .error .empty => .error .srcAddress
  | .error .truncated => .error .srcAddress

end Sys2Proof.Machine
end

