-- ==== Sys2Proof/Machine/Delta.lean ====
section
/-! DEFINITION. The difference chunks DIFF and LUMA (spec 42_decoder.md R101, R102). -/

namespace Sys2Proof.Machine

/-- QOI_OP_DIFF (R101): the lanes r, g, b moved modulo 256, alpha unchanged; then R104. -/
def execDiff (dr dg db : Int) (s : State) : Result := storingChunk 1 (shiftPixel s.px dr dg db) s

/-- QOI_OP_LUMA (R102): g moved by dg, r and b by dg plus their own difference, modulo 256; alpha unchanged; then R104. -/
def execLuma (dg drg dbg : Int) (s : State) : Result :=
  storingChunk 2 (shiftPixel s.px (dg + drg) dg (dg + dbg)) s

end Sys2Proof.Machine
end

