-- ==== Sys2Proof/Machine/Literal.lean ====
section
/-! DEFINITION. The literal chunks RGB and RGBA (spec 42_decoder.md R98, R99). -/

namespace Sys2Proof.Machine

/-- QOI_OP_RGB (R98): r, g, b replaced, "alpha unchanged"; then R104. -/
def execRgb (r g b : Byte) (s : State) : Result := storingChunk 4 (pack r g b (alpha s.px)) s

/-- QOI_OP_RGBA (R99): all four channels replaced; then R104. -/
def execRgba (r g b a : Byte) (s : State) : Result := storingChunk 5 (pack r g b a) s

end Sys2Proof.Machine
end

