-- ==== Sys2Proof/Machine/Reference.lean ====
section
/-! DEFINITION. The chunks that refer back: INDEX and RUN (spec 42_decoder.md R100, R103). -/

namespace Sys2Proof.Machine

/-- QOI_OP_INDEX (R100): the pixel of a cache slot; no cache write. -/
def execIndex (k : Slot) (s : State) : Result := retirePixel (takeChunk 1 (s.cacheRead k) s)

/-- QOI_OP_RUN (R103): `px` unchanged, `run` loaded with the repeats after this pixel; then R104. -/
def execRun (n : Nat) (s : State) : Result := storingChunk 1 s.px { s with run := BitVec.ofNat 6 (n - 1) }

end Sys2Proof.Machine
end

