-- ==== Sys2Proof/WellFormed.lean ====
section
/-! DEFINITION. Which instructions spell a chunk: the encodable operand ranges (spec 30_encoding.md R67).
Byte payloads and the 6-bit slot number carry their range in their type. -/

namespace Sys2Proof

/-- Is `d` in `lo..hi`? -/
def inRange (lo hi d : Int) : Bool := decide (lo ≤ d ∧ d ≤ hi)

/-- R67: "an out-of-range operand spells no chunk". -/
def Instr.wf : Instr → Bool
  | .rgb _ _ _ => true
  | .rgba _ _ _ _ => true
  | .index _ => true
  | .diff dr dg db => inRange (-2) 1 dr && inRange (-2) 1 dg && inRange (-2) 1 db
  | .luma dg drg dbg => inRange (-32) 31 dg && inRange (-8) 7 drg && inRange (-8) 7 dbg
  | .run n => decide (1 ≤ n ∧ n ≤ Config.runMax)

end Sys2Proof
end

