-- ==== Sys2Proof/Machine/Encoder.lean ====
section
/-! DEFINITION. The encoder's steps E_HDR, E_PIX and E_END (spec 41_encoder.md R82 to R91). -/

namespace Sys2Proof.Machine

/-- Step E_HDR (R82): the header at DST[0..13]. -/
def encodeHeader (s : State) : Result :=
  andThen (writeDst 0 (headerOf s.width s.height s.channels s.colorspace) s)
    (fun t => .next { t with wp := 14, fsm := .ePix })

/-- R85, R87 to R90: the bytes of one chunk, written at `wp`. -/
def emitChunk (i : Instr) (s : State) : Result := putBytes (encode i) s

/-- R84 EmitRun: the RUN chunk of the open run, which is then 0. -/
def emitRun (s : State) : Result :=
  andThen (emitChunk (.run s.run.toNat) s) (fun t => .next { t with run := 0 })

/-- R83: before a changed pixel, an open run is flushed first. -/
def flushRun (s : State) : Result := if s.run = 0 then .next s else emitRun s

/-- R83: the chunk of a changed pixel that missed the cache: RGBA where alpha changed, else DIFF, LUMA, RGB in that order. -/
def missChunk (p prev : Word) : Instr :=
  let dr := delta (red p) (red prev)
  let dg := delta (green p) (green prev)
  let db := delta (blue p) (blue prev)
  if alpha p = alpha prev then
    if (Instr.diff dr dg db).wf then .diff dr dg db
    else if (Instr.luma dg (dr - dg) (db - dg)).wf then .luma dg (dr - dg) (db - dg)
    else .rgb (red p) (green p) (blue p)
  else .rgba (red p) (green p) (blue p) (alpha p)

/-- R83, R85, R86: a pixel unlike the one before: INDEX on a cache hit; on a miss it is stored, then its chunk is chosen. -/
def emitChanged (p : Word) (s : State) : Result :=
  if s.cacheRead (pixelHash p) = p then emitChunk (.index (pixelHash p)) s
  else emitChunk (missChunk p s.pxPrev) (s.cacheWrite (pixelHash p) p)

/-- R83: "this is the final pixel of the image". -/
def lastPixel (s : State) : Bool := decide (s.i.toNat + 1 = s.n.toNat)

/-- R83: a pixel equal to the one before extends the run, flushed at 62 or at the last pixel. -/
def repeatPixel (s : State) : Result :=
  let t := { s with run := s.run + 1 }
  if t.run = 62#6 ∨ lastPixel s = true then emitRun t else .next t

/-- R83: what the step emits for the current pixel `px`. -/
def encodeChoose (s : State) : Result :=
  if s.px = s.pxPrev then repeatPixel s else andThen (flushRun s) (emitChanged s.px)

/-- R83: `px_prev <- px; i <- i + 1; if i = N: FSM <- E_END`. -/
def encodeAdvance (s : State) : State :=
  { s with pxPrev := s.px, i := s.i + 1, fsm := if s.i + 1 = s.n then .eEnd else s.fsm }

/-- R83: the next pixel unit of SRC becomes `px`, and `rp` moves past it. -/
def takeUnit (s : State) : State :=
  { s with px := assemble s.src s.rp.toNat s.ch, rp := s.rp + s.ch.setWidth 32 }

/-- Step E_PIX (R83). A pixel unit outside SRC: a fault (log entry 11). -/
def encodePixel (s : State) : Result :=
  if s.rp.toNat + unitBytes s.ch ≤ Config.addressSpace then
    andThen (encodeChoose (takeUnit s)) (fun t => .next (encodeAdvance t))
  else .fault .srcAddress

/-- Step E_END (R91): the end marker, then DONE. -/
def encodeEnd (s : State) : Result :=
  andThen (putBytes Config.endMarker s) (fun t => .next { t with fsm := .done })

end Sys2Proof.Machine
end

