-- ==== Sys2Proof/Machine/Start.lean ====
section
/-! DEFINITION. The start actions (spec 41_encoder.md R81, 42_decoder.md R94, 60_exceptions.md R109 to R117). -/

namespace Sys2Proof.Machine

/-- R32 `OC` of a decode: DESIRED_CHANNELS if that is 3 or 4, else the stream's channel byte. Its other legal value, 0, takes the stream's
channel byte, as R94 says. -/
def outputChannels (desired ch : Byte) : Byte := if desired = 3#8 ∨ desired = 4#8 then desired else ch

/-- R32 `CEND`, SRC_LEN - 8, exact (R6). Below 8, which only an encode accepts, the difference is no 32-bit value and the spec
states none: a free value (DESIGN CHOICE, log entry 23). -/
def endOfChunks (srcLen : Word) : Word := if 8 ≤ srcLen.toNat then srcLen - 8 else Config.freeChunkEnd srcLen

/-- The four values an accepted start computes and holds for the whole operation (R32), encode and decode alike, from the
operation's header: `ch` is its channel byte, which for an encode is CHANNELS, for a decode the stream's, which CHANNELS
takes (R94) (DEDUCED for a decode, log entry 23); `oc` is the start's own. -/
def latchOperation (w h : Word) (ch oc : Byte) (s : State) : State :=
  { s with n := BitVec.ofNat 32 (w.toNat * h.toNat), ch := ch, oc := oc, cend := endOfChunks s.srcLen }

/-- The accepting end of an encode start (R81). The encoder does not read DESIRED_CHANNELS (R19), so what R32 has this start
compute as OC, the decoder's, is stated by no rule: a free value (DESIGN CHOICE of form, log entry 23). -/
def encodeAccept (s : State) : State :=
  { latchOperation s.width s.height s.channels ((Config.freeWord s.draws 7).setWidth 8) (beginOperation 0 s) with
    fsm := .eHdr, draws := s.draws + 1 }

/-- Encode start (R81): the first failing check raises its error. -/
def encodeStart (s : State) : State :=
  if s.srcLen = 0 then raiseError .nullInput s
  else if headerFieldsValid s.width s.height s.channels s.colorspace = false then raiseError .invalidHeader s
  else if s.srcLen.toNat ≠ s.width.toNat * s.height.toNat * s.channels.toNat then raiseError .lengthMismatch s
  else encodeAccept s

/-- R94: DESIRED_CHANNELS is one of 0, 3, 4. -/
def desiredLegal (d : Byte) : Bool := decide (d = 0#8) || decide (d = 3#8) || decide (d = 4#8)

/-- The accepting end of a decode start (R94): the parsed header becomes the header registers. -/
def decodeAccept (w h : Word) (ch cs : Byte) (s : State) : State :=
  { latchOperation w h ch (outputChannels s.desiredChannels ch) (beginOperation 14 s) with
    width := w, height := h, channels := ch, colorspace := cs, fsm := .dPix }

/-- Decode start (R94): the first failing check raises its error. -/
def decodeStart (s : State) : State :=
  if desiredLegal s.desiredChannels = false then raiseError .badRequest s
  else if s.srcLen = 0 then raiseError .nullInput s
  else if s.srcLen.toNat < Config.minStream then raiseError .bufferTooShort s
  else if headerValid (s.src.getBe32 0) (s.src.getBe32 4) (s.src.getBe32 8) (s.src.get 12) (s.src.get 13) = false then
    raiseError .invalidHeader s
  else decodeAccept (s.src.getBe32 4) (s.src.getBe32 8) (s.src.get 12) (s.src.get 13) s

end Sys2Proof.Machine
end

