-- ==== Sys2Proof/Machine/HostPort.lean ====
section
/-! DEFINITION. The host's accesses (spec 10_state.md R11 to R22, 20_memory.md R35, R47). -/

namespace Sys2Proof.Machine

/-- R11: only 32-bit accesses at multiples of 4 have a meaning (log entry 10). -/
def accessLegal (size : Nat) (off : Word) : Bool := decide (size = 4) && decide (off.toNat % 4 = 0)

/-- `RegRead(off)` (R11 to R21): the value at an offset; an unmapped one reads 0, CTRL reads 0. -/
def regValue (s : State) (off : Word) : Word :=
  if off = 0x04#32 then s.statusWord
  else if off = 0x08#32 then s.errCode.code.setWidth 32
  else if off = 0x0C#32 then s.width
  else if off = 0x10#32 then s.height
  else if off = 0x14#32 then s.channels.setWidth 32
  else if off = 0x18#32 then s.colorspace.setWidth 32
  else if off = 0x1C#32 then s.desiredChannels.setWidth 32
  else if off = 0x20#32 then s.srcLen
  else if off = 0x24#32 then s.wp
  else 0

/-- R12, R115: a CTRL write while not BUSY, by its bits 1..0. -/
def ctrlWrite (v : Word) (s : State) : State :=
  if v.extractLsb' 0 2 = 0b01#2 then encodeStart s
  else if v.extractLsb' 0 2 = 0b10#2 then decodeStart s
  else if v.extractLsb' 0 2 = 0b11#2 then raiseError .badRequest s
  else s

/-- `RegWrite(off, v)` while not BUSY (R11 to R21): read-only and unmapped offsets ignore it. -/
def regUpdate (off v : Word) (s : State) : State :=
  if off = 0x00#32 then ctrlWrite v s
  else if off = 0x0C#32 then { s with width := v }
  else if off = 0x10#32 then { s with height := v }
  else if off = 0x14#32 then { s with channels := v.extractLsb' 0 8 }
  else if off = 0x18#32 then { s with colorspace := v.extractLsb' 0 8 }
  else if off = 0x1C#32 then { s with desiredChannels := v.extractLsb' 0 8 }
  else if off = 0x20#32 then { s with srcLen := v }
  else s

/-- The host reads a register: allowed always, without a side effect on the core (R22). -/
def hostRegRead (size : Nat) (off : Word) (s : State) : Result :=
  if accessLegal size off then .next { s with readData := some (regValue s off) } else .refused .registerAccess

/-- The host writes a register: no effect while BUSY (R22). -/
def hostRegWrite (size : Nat) (off v : Word) (s : State) : Result :=
  if accessLegal size off then .next (if s.busy then s else regUpdate off v s) else .refused .registerAccess

/-- A host read that yields an unspecified byte: a free value (log entries 7 and 8). -/
def hostFreeRead (a : Word) (s : State) : State :=
  { s with readData := some ((Config.freeByte s.draws a.toNat).setWidth 32), draws := s.draws + 1 }

/-- The host reads SRC (R35): while BUSY the spec gives no value (log entry 8). -/
def hostSrcRead (a : Word) (s : State) : Result :=
  .next (if s.busy then hostFreeRead a s else { s with readData := some ((s.src.get a.toNat).setWidth 32) })

/-- The host writes SRC (R35): while BUSY its duty is broken (R47 (c), 93 S4; log entry 9). -/
def hostSrcWrite (a : Word) (v : Byte) (s : State) : Result :=
  if s.busy then .refused .srcWriteWhileBusy else .next { s with src := s.src.set a.toNat v }

/-- The host reads DST (R35): while BUSY any value, from the host's view (93 S5; log entry 7). -/
def hostDstRead (a : Word) (s : State) : Result :=
  .next (if s.busy then hostFreeRead a s else { s with readData := some ((s.dst.get a.toNat).setWidth 32) })

end Sys2Proof.Machine
end

