-- ==== Sys2Proof/Machine/Control.lean ====
section
/-! DEFINITION. Which step the machine takes: the host's next action, or the core's own step (spec 10_state.md R24,
42_decoder.md R95 to R97, 60_exceptions.md R126; log entries 1 and 2). -/

namespace Sys2Proof.Machine

/-- Run continuation (R96). -/
def continueRun (s : State) : Result := retirePixel { s with run := s.run - 1 }

/-- The step that reads and runs the chunk at `rp` (R95). -/
def runChunk (s : State) : Result :=
  match fetchChunk s with
  | .ok i => exec i s
  | .error f => .fault f

/-- Step D_PIX (R95): continue a run, else run a chunk, else repeat the pixel (R97). -/
def decodePixel (s : State) : Result :=
  if s.run ≠ 0 then continueRun s
  else if s.rp.toNat < s.cend.toNat then runChunk s
  else retirePixel s

/-- The core's own step. In IDLE, DONE and ERROR none is enabled: the state stays (R126; log entry 2). -/
def coreStep (s : State) : Result :=
  match s.fsm with
  | .idle => .next s
  | .eHdr => encodeHeader s
  | .ePix => encodePixel s
  | .eEnd => encodeEnd s
  | .dPix => decodePixel s
  | .done => .next s
  | .error => .next s

/-- One action of the host. -/
def hostStep (e : HostEvent) (s : State) : Result :=
  match e with
  | .wait => coreStep s
  | .reset => .next (resetMachine s)
  | .regRead size off => hostRegRead size off s
  | .regWrite size off v => hostRegWrite size off v s
  | .srcRead a => hostSrcRead a s
  | .srcWrite a v => hostSrcWrite a v s
  | .dstRead a => hostDstRead a s

/-- The host's next action, if it has one to come; else the core's own step. -/
def nextStep (s : State) : Result :=
  match s.inbox with
  | [] => coreStep s
  | e :: es => hostStep e { s with inbox := es }

/-- Will the next step read and run a chunk at `rp`, with room for the longest chunk and its pixel? -/
def fetchReady (s : State) : Bool :=
  decide (s.inbox = []) && decide (s.fsm = .dPix) && decide (s.run = 0) && decide (s.rp.toNat < s.cend.toNat) &&
    decide (s.rp.toNat + 5 ≤ Config.addressSpace) && decide (s.wp.toNat + 4 ≤ Config.addressSpace)

/-- Place the bytes of a chunk so that the next step runs it: at `rp` where a decode is about to fetch, else as the only
chunk of a stream of one RGBA pixel that an accepted decode start has loaded (R52, R94; log entry 15). -/
def placeChunk (bs : List Byte) (s : State) : State :=
  if fetchReady s then { s with src := s.src.setBytes s.rp.toNat bs }
  else
    decodeStart
      { s with
        inbox := [], fsm := .idle, desiredChannels := 0, srcLen := 27,
        src := s.src.setBytes 0 (headerOf 1 1 4 0 ++ bs ++ Config.endMarker) }

end Sys2Proof.Machine
end

