-- ==== Sys2Proof/Machine/Step.lean ====
section
/-! DEFINITION. The one step of the machine, and how a word of the opcode table is placed for it. -/

namespace Sys2Proof.Machine

/-- One step: one action of the host, or one transition of the core's state machine (spec 92_eei_decisions.md D21). -/
def step (s : State) : Host.Outcome State Fault Refusal := nextStep s

/-- `s` with the instruction of an opcode-table word stored where the next step fetches (log entry 15). -/
def State.withFetchWord (s : State) (nbits w : Nat) : State := placeChunk (tableBytes nbits w) s

end Sys2Proof.Machine
end

