-- ==== Sys2Proof/Safety.lean ====
section
/-! DEFINITION. What a safe run is, and the terms claims are stated in: the invariant of the state machines, what a step
keeps, what it writes, and runs of several steps. -/

namespace Sys2Proof.Safety

open Sys2Proof.Machine

/-- What holds from an accepted encode start until DONE (R32, R81): the latched values fit the registers. -/
abbrev EncodeLatched (s : State) : Prop :=
  headerFieldsValid s.width s.height s.channels s.colorspace = true ∧ s.ch = s.channels ∧
    s.n.toNat = s.width.toNat * s.height.toNat ∧ s.srcLen.toNat = s.n.toNat * s.ch.toNat

/-- Between two E_PIX steps (R28, R30, R31, R72, R92): where the pointers stand, and how much has been written. -/
abbrev EncodeProgress (s : State) : Prop :=
  s.rp.toNat = s.i.toNat * s.ch.toNat ∧ s.run.toNat ≤ 61 ∧ (s.ch = 3#8 → alpha s.pxPrev = 255#8) ∧
    14 ≤ s.wp.toNat ∧ (0 < s.i.toNat ∧ s.run = 0 → 15 ≤ s.wp.toNat) ∧
    s.wp.toNat + (if s.run = 0 then 0 else 1) ≤ 14 + s.i.toNat * (s.ch.toNat + 1)

/-- Between two D_PIX steps (R28, R32, R45, R105, R106). -/
abbrev DecodeProgress (s : State) : Prop :=
  headerFieldsValid s.width s.height s.channels s.colorspace = true ∧ desiredLegal s.desiredChannels = true ∧
    s.oc = outputChannels s.desiredChannels s.channels ∧ s.n.toNat = s.width.toNat * s.height.toNat ∧
    s.i.toNat < s.n.toNat ∧ s.wp.toNat = s.i.toNat * s.oc.toNat ∧ s.cend.toNat + 8 = s.srcLen.toNat ∧
    14 ≤ s.cend.toNat ∧ 14 ≤ s.rp.toNat ∧ s.rp.toNat ≤ s.cend.toNat + 4 ∧ s.run.toNat ≤ 61

/-- The invariant: memories in canonical form, and in each busy state what the rules promise of the registers. -/
abbrev Inv (s : State) : Prop :=
  s.src.wf = true ∧ s.dst.wf = true ∧
    (s.fsm = .eHdr → EncodeLatched s ∧ s.i = 0 ∧ s.rp = 0 ∧ s.wp = 0 ∧ s.run = 0 ∧ s.pxPrev = Config.pxInit) ∧
    (s.fsm = .ePix → EncodeLatched s ∧ EncodeProgress s ∧ s.i.toNat < s.n.toNat) ∧
    (s.fsm = .eEnd → EncodeLatched s ∧ EncodeProgress s ∧ s.i = s.n ∧ s.run = 0) ∧
    (s.fsm = .dPix → DecodeProgress s)

/-- While an operation runs, every slot holds the initial value or a pixel that hashes to it (R79). -/
abbrev CacheInv (s : State) : Prop :=
  s.busy = true → ∀ k : Slot, s.cacheRead k = Config.cacheInit ∨ pixelHash (s.cacheRead k) = k

/-- While an operation runs, the latches hold what its start computed, from registers nothing writes until it ends (R32):
N below the limit, CH 3 or 4, CEND 8 below SRC_LEN, and in a decode OC as DESIRED_CHANNELS asks and CEND at least 14. -/
abbrev LatchInv (s : State) : Prop :=
  s.busy = true →
    s.n.toNat = s.width.toNat * s.height.toNat ∧ s.n.toNat < 400000000 ∧ s.ch = s.channels ∧ (s.ch = 3#8 ∨ s.ch = 4#8) ∧
      (8 ≤ s.srcLen.toNat → s.cend.toNat + 8 = s.srcLen.toNat) ∧
      (s.fsm = .dPix → 14 ≤ s.cend.toNat ∧
        s.oc = (if s.desiredChannels = 3#8 ∨ s.desiredChannels = 4#8 then s.desiredChannels else s.channels))

/-- The next step is the encoder's: an encode start while not BUSY (R81), or one of its own steps (R82, R83, R91). -/
abbrev EncoderTurn (s : State) : Prop :=
  (s.busy = false ∧ ∃ v es, s.inbox = .regWrite 4 0 v :: es ∧ v.extractLsb' 0 2 = 0b01#2) ∨
    (s.inbox = [] ∧ (s.fsm = .eHdr ∨ s.fsm = .ePix ∨ s.fsm = .eEnd))

/-- The core's own step comes next: the host has nothing to say. -/
abbrev CoreTurn (s : State) : Prop := s.inbox = []

/-- The next step reads a chunk (R95): D_PIX, no run open, a control byte before the marker region. -/
abbrev FetchReady (s : State) : Prop :=
  s.inbox = [] ∧ s.fsm = .dPix ∧ s.run = 0 ∧ s.rp.toNat < s.cend.toNat

/-- There is room in DST's address space for one output pixel. -/
abbrev EmitRoom (s : State) : Prop := s.wp.toNat + (pixelBytes s.px s.oc).length ≤ Config.addressSpace

/-- The frame of memory: after writing `bs` from address `a`, DST reads them there and as before everywhere else. -/
abbrev DstWritten (s t : State) (a : Nat) (bs : List Byte) : Prop :=
  ∀ x, t.dst.get x = if a ≤ x ∧ x < a + bs.length then bs.getD (x - a) 0 else s.dst.get x

/-- The host registers that hold a value are as before (R14 to R20). -/
abbrev SameRegisters (s t : State) : Prop :=
  t.errCode = s.errCode ∧ t.width = s.width ∧ t.height = s.height ∧ t.channels = s.channels ∧
    t.colorspace = s.colorspace ∧ t.desiredChannels = s.desiredChannels ∧ t.srcLen = s.srcLen

/-- The values an accepted start latched are as before (R32). -/
abbrev SameLatches (s t : State) : Prop := t.n = s.n ∧ t.ch = s.ch ∧ t.oc = s.oc ∧ t.cend = s.cend

/-- The model's own fields are as before. -/
abbrev SameHost (s t : State) : Prop := t.inbox = s.inbox ∧ t.readData = s.readData ∧ t.draws = s.draws

/-- The cache is as before. -/
abbrev SameCache (s t : State) : Prop := ∀ k : Slot, t.cacheRead k = s.cacheRead k

/-- The cache holds `p` in slot `hash p` and is as before everywhere else (R79, R104). -/
abbrev CacheStored (s t : State) (p : Word) : Prop :=
  ∀ k : Slot, t.cacheRead k = if k = pixelHash p then p else s.cacheRead k

/-- The end of a D_PIX step whose current pixel is `p` (R95, R105): `p` in `px`, its bytes in DST at the old `wp`
(and every other byte of DST as before), `wp` past them, `i` one on, DONE at the last pixel. -/
abbrev PixelRetired (s t : State) (p : Word) : Prop :=
  t.px = p ∧ DstWritten s t s.wp.toNat (pixelBytes p s.oc) ∧ t.wp = s.wp + s.oc.setWidth 32 ∧ t.i = s.i + 1 ∧
    t.fsm = (if s.i + 1 = s.n then .done else s.fsm)

/-- What no D_PIX step changes: the host registers, the latched values, `px_prev`, SRC, the model's own fields. -/
abbrev DecodeFrame (s t : State) : Prop :=
  SameRegisters s t ∧ SameLatches s t ∧ t.pxPrev = s.pxPrev ∧ t.src = s.src ∧ SameHost s t

/-- What no encoder step changes: the host registers, the latched values, SRC, the model's own fields. -/
abbrev EncodeFrame (s t : State) : Prop := SameRegisters s t ∧ SameLatches s t ∧ t.src = s.src ∧ SameHost s t

/-- R54 `HeaderFieldsValid`, spelled out on exact integers. -/
abbrev HeaderLegal (w h : Word) (ch cs : Byte) : Prop :=
  0 < w.toNat ∧ 0 < h.toNat ∧ (ch = 3#8 ∨ ch = 4#8) ∧ (cs = 0#8 ∨ cs = 1#8) ∧ w.toNat * h.toNat < 400000000

/-- What an accepted start leaves (R34), whatever the operation: every slot 0, both pixels (0,0,0,255), the counters 0. -/
abbrev Initialised (t : State) : Prop :=
  (∀ k : Slot, t.cacheRead k = 0#32) ∧ t.px = 0x000000FF#32 ∧ t.pxPrev = 0x000000FF#32 ∧ t.run = 0 ∧ t.i = 0 ∧
    t.wp = 0 ∧ t.errCode = .none

/-- R84: the byte of the RUN chunk for a run of `r` pixels. -/
def runByte (r : Nat) : Byte := BitVec.ofNat 8 (0xC0 + (r - 1))

/-- R83, R87 to R90: the bytes of a changed pixel that missed the cache, by the arithmetic of the rules' own formulas. -/
def missBytes (p q : Word) : List Byte :=
  let dr := (red p - red q).toInt
  let dg := (green p - green q).toInt
  let db := (blue p - blue q).toInt
  if alpha p ≠ alpha q then [0xFF#8, red p, green p, blue p, alpha p]
  else if (-2 ≤ dr ∧ dr ≤ 1) ∧ (-2 ≤ dg ∧ dg ≤ 1) ∧ (-2 ≤ db ∧ db ≤ 1) then
    [BitVec.ofInt 8 (0x40 + (dr + 2) * 16 + (dg + 2) * 4 + (db + 2))]
  else if (-32 ≤ dg ∧ dg ≤ 31) ∧ (-8 ≤ dr - dg ∧ dr - dg ≤ 7) ∧ (-8 ≤ db - dg ∧ db - dg ≤ 7) then
    [BitVec.ofInt 8 (0x80 + (dg + 32)), BitVec.ofInt 8 ((dr - dg + 8) * 16 + (db - dg + 8))]
  else [0xFE#8, red p, green p, blue p]

/-- Does the host's next action start an operation (R12, R24, R119): a legal CTRL write with OP ≠ 00? -/
abbrev StartsOperation (e : HostEvent) : Prop :=
  ∃ v : Word, e = .regWrite 4 0 v ∧ v.extractLsb' 0 2 ≠ 0b00#2

/-- `k` steps. -/
def stepN : Nat → State → Result
  | 0, s => .next s
  | k + 1, s => andThen (step s) (stepN k)

/-- Bytes DST[0 ..< len] and SRC[0 ..< len] hold the same. -/
abbrev SameBytes (d : DstMemory) (m : Memory) (len : Nat) : Prop := ∀ a, a < len → d.get a = m.get a

end Sys2Proof.Safety
end

