-- ==== Sys2Proof/Certificates/Slice0/Obligations.lean ====
section
/-! DEFINITION. The statements for the provers. -/

open Sys2Proof Sys2Proof.Machine Sys2Proof.Safety

/-! ### The stream's encoding -/

/-- 30_encoding.md R58 to R63, R67: every well-formed chunk is read back from its bytes, with what follows left over. -/
def Obligations.DecodeInvertsEncode : Prop :=
  ∀ (i : Instr) (rest : List Byte), i.wf = true → decode (encode i ++ rest) = .ok (i, rest)

/-- 30_encoding.md R56, R65: what the decoder reads is well-formed and its encoding is the bytes read, so each byte
sequence has one meaning. -/
def Obligations.EncodeInvertsDecode : Prop :=
  ∀ (bs rest : List Byte) (i : Instr), decode bs = .ok (i, rest) → i.wf = true ∧ encode i ++ rest = bs

/-- 30_encoding.md R57, R65: bytes are rejected only for want of payload; otherwise the class is that of the first byte
and exactly its length is consumed. -/
def Obligations.DecodeRejectsOnlyMissingBytes : Prop :=
  decode [] = .error .empty ∧
    ∀ (b1 : Byte) (rest : List Byte),
      if (classOf b1).length ≤ rest.length + 1 then
        ∃ i, decode (b1 :: rest) = .ok (i, rest.drop ((classOf b1).length - 1)) ∧ i.chunkClass = classOf b1
      else decode (b1 :: rest) = .error .truncated

/-- 30_encoding.md R56, R57 and the opcode map: class and length by the range of the first byte. -/
def Obligations.ChunkClassAndLengthByFirstByte : Prop :=
  ∀ b1 : Byte,
    (b1.toNat ≤ 0x3F → classOf b1 = .index ∧ (classOf b1).length = 1) ∧
    (0x40 ≤ b1.toNat ∧ b1.toNat ≤ 0x7F → classOf b1 = .diff ∧ (classOf b1).length = 1) ∧
    (0x80 ≤ b1.toNat ∧ b1.toNat ≤ 0xBF → classOf b1 = .luma ∧ (classOf b1).length = 2) ∧
    (0xC0 ≤ b1.toNat ∧ b1.toNat ≤ 0xFD → classOf b1 = .run ∧ (classOf b1).length = 1) ∧
    (b1.toNat = 0xFE → classOf b1 = .rgb ∧ (classOf b1).length = 4) ∧
    (b1.toNat = 0xFF → classOf b1 = .rgba ∧ (classOf b1).length = 5)

/-- Words of the spec's examples (41_encoder.md R84 to R90), one of each row, read as they stand there. -/
def Obligations.ExampleWordsDecode : Prop :=
  decode [0xFE#8, 0x80#8, 0x80#8, 0x80#8] = .ok (.rgb 128#8 128#8 128#8, []) ∧
  decode [0xFF#8, 0x0A#8, 0x14#8, 0x1E#8, 0x28#8] = .ok (.rgba 10#8 20#8 30#8 40#8, []) ∧
  decode [0x32#8] = .ok (.index 50#6, []) ∧
  decode [0x76#8] = .ok (.diff 1 (-1) 0, []) ∧
  decode [0xA0#8, 0xA8#8] = .ok (.luma 0 2 0, []) ∧
  decode [0xCE#8] = .ok (.run 15, [])

/-! ### Pixels, the hash and the cache -/

/-- 40_pixel_cache.md R69, R70: packing and unpacking are inverse, and the packed value is r·2^24 + g·2^16 + b·2^8 + a. -/
def Obligations.PackAndUnpackAreInverse : Prop :=
  (∀ r g b a : Byte, red (pack r g b a) = r ∧ green (pack r g b a) = g ∧ blue (pack r g b a) = b ∧
    alpha (pack r g b a) = a ∧
    (pack r g b a).toNat = r.toNat * 2 ^ 24 + g.toNat * 2 ^ 16 + b.toNat * 2 ^ 8 + a.toNat) ∧
  ∀ v : Word, pack (red v) (green v) (blue v) (alpha v) = v

/-- 40_pixel_cache.md R74: the signed difference is in -128..127, is congruent to c - p modulo 256, and moves p to c. -/
def Obligations.DeltaIsTheSignedDifferenceAndInverts : Prop :=
  ∀ c p : Byte, -128 ≤ delta c p ∧ delta c p ≤ 127 ∧ (256 : Int) ∣ delta c p - ((c.toNat : Int) - p.toNat) ∧
    moved p (delta c p) = c

/-- 40_pixel_cache.md R77: the hash is the low six bits of the exact sum, and a 6-bit adder tree computes it. -/
def Obligations.HashIsTheSixBitAdderTree : Prop :=
  ∀ p : Word,
    (pixelHash p).toNat =
      ((red p).toNat * 3 + (green p).toNat * 5 + (blue p).toNat * 7 + (alpha p).toNat * 11) % 64 ∧
    pixelHash p = (red p).setWidth 6 * 3#6 + (green p).setWidth 6 * 5#6 + (blue p).setWidth 6 * 7#6 +
      (alpha p).setWidth 6 * 11#6

/-- 40_pixel_cache.md R79: a write sets its slot and no other, and changes nothing else. -/
def Obligations.CacheWriteSetsOneSlot : Prop :=
  ∀ (s : State) (j k : Slot) (v : Word),
    (s.cacheWrite j v).cacheRead k = (if k = j then v else s.cacheRead k) ∧
    { s.cacheWrite j v with cache := s.cache } = s

/-- 40_pixel_cache.md R79, 10_state.md R34: every step keeps that each slot, while an operation runs, holds 0 or a pixel
that hashes to it. -/
def Obligations.CacheSlotsHoldTheirHash : Prop :=
  ∀ s t : State, CacheInv s → step s = .next t → CacheInv t

/-! ### The chunks -/

/-- A step whose fetch decodes is exec of the decoded chunk (42_decoder.md R95); where a byte of the chunk lies outside
SRC's address space it faults (the model's choice, log entry 11). -/
def Obligations.StepRunsTheDecodedChunk : Prop :=
  ∀ s : State, FetchReady s →
    (∀ (m : Nat) (i : Instr) (rest : List Byte), s.rp.toNat + m ≤ Config.addressSpace →
      decode (s.src.getBytes s.rp.toNat m) = .ok (i, rest) → step s = exec i s) ∧
    (Config.addressSpace < s.rp.toNat + (classOf (s.src.get s.rp.toNat)).length → step s = .fault .srcAddress)

/-- 42_decoder.md R98. The model's choices in it: N, CH, OC and CEND kept also in the
step that enters DONE, where R32 leaves them unspecified (DESIGN CHOICE, log entry 12), and exec doing the same
outside D_PIX (DESIGN CHOICE, log entry 20).
Outside the runs, counters wrap and a count other than 3 or 4 is taken as written (DEDUCED, log entries 13 and 14). -/
def Obligations.RgbChunk : Prop :=
  (∀ (r g b : Byte) (s : State), s.dst.wf = true → EmitRoom s →
    ∃ t, exec (.rgb r g b) s = .next t ∧ PixelRetired s t (pack r g b (alpha s.px)) ∧ t.rp = s.rp + 4 ∧
      t.run = s.run ∧ CacheStored s t (pack r g b (alpha s.px)) ∧ DecodeFrame s t) ∧
  ∀ s : State, FetchReady s → s.src.get s.rp.toNat = 0xFE#8 → s.rp.toNat + 4 ≤ Config.addressSpace →
    step s = exec (.rgb (s.src.get (s.rp.toNat + 1)) (s.src.get (s.rp.toNat + 2)) (s.src.get (s.rp.toNat + 3))) s

/-- 42_decoder.md R99. The model's choices in it: N, CH, OC and CEND kept also in the
step that enters DONE, where R32 leaves them unspecified (DESIGN CHOICE, log entry 12), and exec doing the same
outside D_PIX (DESIGN CHOICE, log entry 20).
Outside the runs, counters wrap and a count other than 3 or 4 is taken as written (DEDUCED, log entries 13 and 14). -/
def Obligations.RgbaChunk : Prop :=
  (∀ (r g b a : Byte) (s : State), s.dst.wf = true → EmitRoom s →
    ∃ t, exec (.rgba r g b a) s = .next t ∧ PixelRetired s t (pack r g b a) ∧ t.rp = s.rp + 5 ∧
      t.run = s.run ∧ CacheStored s t (pack r g b a) ∧ DecodeFrame s t) ∧
  ∀ s : State, FetchReady s → s.src.get s.rp.toNat = 0xFF#8 → s.rp.toNat + 5 ≤ Config.addressSpace →
    step s = exec (.rgba (s.src.get (s.rp.toNat + 1)) (s.src.get (s.rp.toNat + 2)) (s.src.get (s.rp.toNat + 3))
      (s.src.get (s.rp.toNat + 4))) s

/-- 42_decoder.md R100. The model's choices in it: N, CH, OC and CEND kept also in the
step that enters DONE, where R32 leaves them unspecified (DESIGN CHOICE, log entry 12), and exec doing the same
outside D_PIX (DESIGN CHOICE, log entry 20).
Outside the runs, counters wrap and a count other than 3 or 4 is taken as written (DEDUCED, log entries 13 and 14). -/
def Obligations.IndexChunk : Prop :=
  (∀ (k : Slot) (s : State), s.dst.wf = true → EmitRoom s →
    ∃ t, exec (.index k) s = .next t ∧ PixelRetired s t (s.cacheRead k) ∧ t.rp = s.rp + 1 ∧
      t.run = s.run ∧ SameCache s t ∧ DecodeFrame s t) ∧
  ∀ s : State, FetchReady s → (s.src.get s.rp.toNat).extractLsb' 6 2 = 0b00#2 →
    step s = exec (.index ((s.src.get s.rp.toNat).extractLsb' 0 6)) s

/-- 42_decoder.md R101. The model's choices in it: N, CH, OC and CEND kept also in the
step that enters DONE, where R32 leaves them unspecified (DESIGN CHOICE, log entry 12), exec doing the same
outside D_PIX (DESIGN CHOICE, log entry 20), and operands outside the encodable ranges (DESIGN CHOICE, log entry 21).
Outside the runs, counters wrap and a count other than 3 or 4 is taken as written (DEDUCED, log entries 13 and 14). -/
def Obligations.DiffChunk : Prop :=
  (∀ (dr dg db : Int) (s : State), s.dst.wf = true → EmitRoom s →
    let p := pack (BitVec.ofInt 8 ((red s.px).toNat + dr)) (BitVec.ofInt 8 ((green s.px).toNat + dg))
      (BitVec.ofInt 8 ((blue s.px).toNat + db)) (alpha s.px)
    ∃ t, exec (.diff dr dg db) s = .next t ∧ PixelRetired s t p ∧ t.rp = s.rp + 1 ∧
      t.run = s.run ∧ CacheStored s t p ∧ DecodeFrame s t) ∧
  ∀ s : State, FetchReady s → (s.src.get s.rp.toNat).extractLsb' 6 2 = 0b01#2 →
    step s = exec (.diff (((s.src.get s.rp.toNat).extractLsb' 4 2).toNat - 2)
      (((s.src.get s.rp.toNat).extractLsb' 2 2).toNat - 2) (((s.src.get s.rp.toNat).extractLsb' 0 2).toNat - 2)) s

/-- 42_decoder.md R102. The model's choices in it: N, CH, OC and CEND kept also in the
step that enters DONE, where R32 leaves them unspecified (DESIGN CHOICE, log entry 12), exec doing the same
outside D_PIX (DESIGN CHOICE, log entry 20), and operands outside the encodable ranges (DESIGN CHOICE, log entry 21).
Outside the runs, counters wrap and a count other than 3 or 4 is taken as written (DEDUCED, log entries 13 and 14). -/
def Obligations.LumaChunk : Prop :=
  (∀ (dg drg dbg : Int) (s : State), s.dst.wf = true → EmitRoom s →
    let p := pack (BitVec.ofInt 8 ((red s.px).toNat + (dg + drg))) (BitVec.ofInt 8 ((green s.px).toNat + dg))
      (BitVec.ofInt 8 ((blue s.px).toNat + (dg + dbg))) (alpha s.px)
    ∃ t, exec (.luma dg drg dbg) s = .next t ∧ PixelRetired s t p ∧ t.rp = s.rp + 2 ∧
      t.run = s.run ∧ CacheStored s t p ∧ DecodeFrame s t) ∧
  ∀ s : State, FetchReady s → (s.src.get s.rp.toNat).extractLsb' 6 2 = 0b10#2 →
    s.rp.toNat + 2 ≤ Config.addressSpace →
    step s = exec (.luma (((s.src.get s.rp.toNat).extractLsb' 0 6).toNat - 32)
      (((s.src.get (s.rp.toNat + 1)).extractLsb' 4 4).toNat - 8)
      (((s.src.get (s.rp.toNat + 1)).extractLsb' 0 4).toNat - 8)) s

/-- 42_decoder.md R103. The model's choices in it: N, CH, OC and CEND kept also in the
step that enters DONE, where R32 leaves them unspecified (DESIGN CHOICE, log entry 12), and exec doing the same
outside D_PIX (DESIGN CHOICE, log entry 20).
Outside the runs, counters wrap and a count other than 3 or 4 is taken as written (DEDUCED, log entries 13 and 14). -/
def Obligations.RunChunk : Prop :=
  (∀ (m : Nat) (s : State), (Instr.run m).wf = true → s.dst.wf = true → EmitRoom s →
    ∃ t, exec (.run m) s = .next t ∧ PixelRetired s t s.px ∧ t.rp = s.rp + 1 ∧ t.run.toNat + 1 = m ∧
      CacheStored s t s.px ∧ DecodeFrame s t) ∧
  ∀ s : State, FetchReady s → (s.src.get s.rp.toNat).extractLsb' 6 2 = 0b11#2 →
    s.src.get s.rp.toNat ≠ 0xFE#8 → s.src.get s.rp.toNat ≠ 0xFF#8 →
    step s = exec (.run (((s.src.get s.rp.toNat).extractLsb' 0 6).toNat + 1)) s

/-- A chunk whose pixel has no room in DST's address space faults, whatever it is. The spec states no such fault: R37 says
DST has no capacity check. The model's choices: the fault, read from the address range of R35 (DEDUCED, log entry 11), and
exec doing the same outside D_PIX (DESIGN CHOICE, log entry 20). -/
def Obligations.ChunkWithoutRoomFaults : Prop :=
  ∀ (i : Instr) (s : State), ¬ EmitRoom s → exec i s = .fault .dstAddress

/-- 42_decoder.md R96. The model's choice in it: N, CH, OC and CEND kept also in the
step that enters DONE, where R32 leaves them unspecified (DESIGN CHOICE, log entry 12).
Outside the runs, counters wrap and a count other than 3 or 4 is taken as written (DEDUCED, log entries 13 and 14). -/
def Obligations.RunContinuation : Prop :=
  ∀ s : State, CoreTurn s → s.fsm = .dPix → s.run ≠ 0 → s.dst.wf = true → EmitRoom s →
    ∃ t, step s = .next t ∧ t.run.toNat + 1 = s.run.toNat ∧ PixelRetired s t s.px ∧ t.rp = s.rp ∧
      SameCache s t ∧ DecodeFrame s t

/-- 42_decoder.md R97. The model's choice in it: N, CH, OC and CEND kept also in the
step that enters DONE, where R32 leaves them unspecified (DESIGN CHOICE, log entry 12).
Outside the runs, counters wrap and a count other than 3 or 4 is taken as written (DEDUCED, log entries 13 and 14). -/
def Obligations.ExhaustedInputRepeatsThePixel : Prop :=
  ∀ s : State, CoreTurn s → s.fsm = .dPix → s.run = 0 → s.cend.toNat ≤ s.rp.toNat → s.dst.wf = true → EmitRoom s →
    ∃ t, step s = .next t ∧ t.run = 0 ∧ PixelRetired s t s.px ∧ t.rp = s.rp ∧ SameCache s t ∧ DecodeFrame s t

/-- 40_pixel_cache.md R73: the bytes of an output pixel, r, g, b and, with four channels, a; each a channel of `px`. -/
def Obligations.OutputBytesOfAPixel : Prop :=
  ∀ (r g b a : Byte), pixelBytes (pack r g b a) 3#8 = [r, g, b] ∧ pixelBytes (pack r g b a) 4#8 = [r, g, b, a]

/-- log entry 15: a table word that decodes is run by the very next step from where it is placed. -/
def Obligations.PlacedTableWordRuns : Prop :=
  ∀ (s : State) (nbits w : Nat) (i : Instr), s.src.wf = true → decodeTableWord nbits w = some i →
    step (s.withFetchWord nbits w) = exec i (s.withFetchWord nbits w)

/-! ### The encoder -/

/-- 41_encoder.md R82. -/
def Obligations.EncodeHeaderStep : Prop :=
  ∀ s : State, CoreTurn s → s.fsm = .eHdr → s.dst.wf = true →
    ∃ t, step s = .next t ∧
      DstWritten s t 0
        [0x71#8, 0x6F#8, 0x69#8, 0x66#8,
          s.width.extractLsb' 24 8, s.width.extractLsb' 16 8, s.width.extractLsb' 8 8, s.width.extractLsb' 0 8,
          s.height.extractLsb' 24 8, s.height.extractLsb' 16 8, s.height.extractLsb' 8 8, s.height.extractLsb' 0 8,
          s.channels, s.colorspace] ∧
      t.wp = 14 ∧ t.fsm = .ePix ∧ t.px = s.px ∧ t.pxPrev = s.pxPrev ∧ t.run = s.run ∧ t.i = s.i ∧ t.rp = s.rp ∧
      SameCache s t ∧ EncodeFrame s t

/-- 41_encoder.md R83, R84: a pixel equal to the one before only extends the run; at 62 or at the last pixel the run is
written as one RUN byte.
Outside the runs, counters wrap and a count other than 3 or 4 is taken as written (DEDUCED, log entries 13 and 14). -/
def Obligations.EncodeRepeatedPixelStep : Prop :=
  ∀ s : State, CoreTurn s → s.fsm = .ePix → s.dst.wf = true → s.run.toNat ≤ 61 →
    s.rp.toNat + unitBytes s.ch ≤ Config.addressSpace → s.wp.toNat + 1 ≤ Config.addressSpace →
    assemble s.src s.rp.toNat s.ch = s.pxPrev →
    ∃ t, step s = .next t ∧ t.px = s.pxPrev ∧ t.pxPrev = s.pxPrev ∧ t.rp = s.rp + s.ch.setWidth 32 ∧ t.i = s.i + 1 ∧
      t.fsm = (if s.i + 1 = s.n then .eEnd else .ePix) ∧ SameCache s t ∧ EncodeFrame s t ∧
      (if s.run.toNat + 1 = 62 ∨ s.i.toNat + 1 = s.n.toNat then
        t.run = 0 ∧ DstWritten s t s.wp.toNat [runByte (s.run.toNat + 1)] ∧ t.wp = s.wp + 1
      else t.run.toNat = s.run.toNat + 1 ∧ DstWritten s t s.wp.toNat [] ∧ t.wp = s.wp)

/-- 41_encoder.md R83 to R90: a changed pixel flushes an open run, then is written as INDEX on a cache hit, else stored
in its slot and written as RGBA, DIFF, LUMA or RGB by the rules' priority and formulas.
Outside the runs, counters wrap and a count other than 3 or 4 is taken as written (DEDUCED, log entries 13 and 14). -/
def Obligations.EncodeChangedPixelStep : Prop :=
  ∀ s : State, CoreTurn s → s.fsm = .ePix → s.dst.wf = true → s.run.toNat ≤ 62 →
    s.rp.toNat + unitBytes s.ch ≤ Config.addressSpace → s.wp.toNat + 6 ≤ Config.addressSpace →
    let p := assemble s.src s.rp.toNat s.ch
    p ≠ s.pxPrev →
    let bytes := (if s.run = 0 then [] else [runByte s.run.toNat]) ++
      (if s.cacheRead (pixelHash p) = p then [BitVec.ofNat 8 (pixelHash p).toNat] else missBytes p s.pxPrev)
    ∃ t, step s = .next t ∧ t.px = p ∧ t.pxPrev = p ∧ t.rp = s.rp + s.ch.setWidth 32 ∧ t.i = s.i + 1 ∧
      t.fsm = (if s.i + 1 = s.n then .eEnd else .ePix) ∧ t.run = 0 ∧ EncodeFrame s t ∧
      DstWritten s t s.wp.toNat bytes ∧ t.wp = s.wp + BitVec.ofNat 32 bytes.length ∧
      (if s.cacheRead (pixelHash p) = p then SameCache s t else CacheStored s t p)

/-- 41_encoder.md R91. The model's choice in it: this step always enters DONE, where R32 leaves N, CH, OC and
CEND unspecified, and the model keeps them (DESIGN CHOICE, log entry 12). -/
def Obligations.EncodeEndStep : Prop :=
  ∀ s : State, CoreTurn s → s.fsm = .eEnd → s.dst.wf = true → s.wp.toNat + 8 ≤ Config.addressSpace →
    (Inv s → s.run = 0) ∧
    ∃ t, step s = .next t ∧ DstWritten s t s.wp.toNat [0, 0, 0, 0, 0, 0, 0, 1] ∧ t.wp = s.wp + 8 ∧ t.fsm = .done ∧
      t.px = s.px ∧ t.pxPrev = s.pxPrev ∧ t.run = s.run ∧ t.i = s.i ∧ t.rp = s.rp ∧ SameCache s t ∧ EncodeFrame s t

/-- 41_encoder.md R83, 42_decoder.md R95 to R103: the chunk the encoder chooses for a pixel, run by a decoder whose
previous pixel and cache slot agree with the encoder's, gives that pixel back. The model's choice in it: exec doing the
same outside D_PIX (DESIGN CHOICE, log entry 20). -/
def Obligations.ChosenChunkGivesThePixelBack : Prop :=
  ∀ (p : Word) (d : State), EmitRoom d →
    ∃ t, exec (if d.cacheRead (pixelHash p) = p then .index (pixelHash p) else missChunk p d.px) d = .next t ∧
      t.px = p ∧ t.cacheRead (pixelHash p) = p

/-! ### Starts, errors and the host's registers -/

/-- 41_encoder.md R81, 60_exceptions.md R116: an encode start while not BUSY; R32: the values it latches. OC, whose value in an
encode no rule states (R19), and CEND where SRC_LEN is below 8 are free values, of which nothing is said. The model's choice in
it: one draw is counted for them (DESIGN CHOICE of form, log entry 23). -/
def Obligations.EncodeStart : Prop :=
  ∀ (s : State) (v : Word) (es : List HostEvent), s.inbox = .regWrite 4 0 v :: es → s.busy = false →
    v.extractLsb' 0 2 = 0b01#2 →
    ∃ t, step s = .next t ∧
      (if s.srcLen = 0 then t = { s with inbox := es, errCode := .nullInput, wp := 0, fsm := .error }
      else if ¬ HeaderLegal s.width s.height s.channels s.colorspace then
        t = { s with inbox := es, errCode := .invalidHeader, wp := 0, fsm := .error }
      else if s.srcLen.toNat ≠ s.width.toNat * s.height.toNat * s.channels.toNat then
        t = { s with inbox := es, errCode := .lengthMismatch, wp := 0, fsm := .error }
      else
        t.fsm = .eHdr ∧ t.n.toNat = s.width.toNat * s.height.toNat ∧ t.ch = s.channels ∧ t.rp = 0 ∧ Initialised t ∧
        t.width = s.width ∧ t.height = s.height ∧ t.channels = s.channels ∧ t.colorspace = s.colorspace ∧
        (8 ≤ s.srcLen.toNat → t.cend.toNat + 8 = s.srcLen.toNat) ∧
        t.desiredChannels = s.desiredChannels ∧ t.srcLen = s.srcLen ∧
        t.src = s.src ∧ t.dst = s.dst ∧ t.inbox = es ∧ t.readData = s.readData ∧ t.draws = s.draws + 1)

/-- 42_decoder.md R94, 60_exceptions.md R116: a decode start while not BUSY; R32: the four values it latches. The model's
reading in it: CH of a decode is CHANNELS as the start leaves it (DEDUCED, log entry 23). -/
def Obligations.DecodeStart : Prop :=
  ∀ (s : State) (v : Word) (es : List HostEvent), s.inbox = .regWrite 4 0 v :: es → s.busy = false →
    v.extractLsb' 0 2 = 0b10#2 →
    let w := s.src.getBe32 4
    let h := s.src.getBe32 8
    let ch := s.src.get 12
    let cs := s.src.get 13
    ∃ t, step s = .next t ∧
      (if ¬ (s.desiredChannels = 0#8 ∨ s.desiredChannels = 3#8 ∨ s.desiredChannels = 4#8) then
        t = { s with inbox := es, errCode := .badRequest, wp := 0, fsm := .error }
      else if s.srcLen = 0 then t = { s with inbox := es, errCode := .nullInput, wp := 0, fsm := .error }
      else if s.srcLen.toNat < 22 then
        t = { s with inbox := es, errCode := .bufferTooShort, wp := 0, fsm := .error }
      else if ¬ (s.src.get 0 = 0x71#8 ∧ s.src.get 1 = 0x6F#8 ∧ s.src.get 2 = 0x69#8 ∧ s.src.get 3 = 0x66#8 ∧
          HeaderLegal w h ch cs) then
        t = { s with inbox := es, errCode := .invalidHeader, wp := 0, fsm := .error }
      else
        t.fsm = .dPix ∧ t.width = w ∧ t.height = h ∧ t.channels = ch ∧ t.colorspace = cs ∧
        t.n.toNat = w.toNat * h.toNat ∧ t.oc = (if s.desiredChannels = 0#8 then ch else s.desiredChannels) ∧
        t.cend.toNat + 8 = s.srcLen.toNat ∧ t.rp = 14 ∧ Initialised t ∧
        t.desiredChannels = s.desiredChannels ∧ t.srcLen = s.srcLen ∧ t.ch = ch ∧
        t.src = s.src ∧ t.dst = s.dst ∧ t.inbox = es ∧ t.readData = s.readData ∧ t.draws = s.draws)

/-- 20_memory.md R36: a four-byte read is big-endian, the lowest address most significant. -/
def Obligations.FourByteReadIsBigEndian : Prop :=
  ∀ (m : Memory) (a : Nat), (m.getBe32 a).toNat =
    (m.get a).toNat * 2 ^ 24 + (m.get (a + 1)).toNat * 2 ^ 16 + (m.get (a + 2)).toNat * 2 ^ 8 + (m.get (a + 3)).toNat

/-- 60_exceptions.md R115: CTRL.OP = 11 while not BUSY. -/
def Obligations.ReservedCommandIsABadRequest : Prop :=
  ∀ (s : State) (v : Word) (es : List HostEvent), s.inbox = .regWrite 4 0 v :: es → s.busy = false →
    v.extractLsb' 0 2 = 0b11#2 →
    ∃ t, step s = .next t ∧ t = { s with inbox := es, errCode := .badRequest, wp := 0, fsm := .error } ∧
      regValue t 0x08#32 = 5#32 ∧ regValue t 0x04#32 = 4#32 ∧ regValue t 0x24#32 = 0#32

/-- 60_exceptions.md R117: whichever start fails, and with whichever code, it changes ERR_CODE, wp and FSM alone. -/
def Obligations.FailedStartChangesThreeRegisters : Prop :=
  ∀ (s t : State) (e : HostEvent) (es : List HostEvent), s.inbox = e :: es → StartsOperation e → s.busy = false →
    step s = .next t → t.fsm = .error →
    t.errCode ≠ .none ∧ t = { s with inbox := es, errCode := t.errCode, wp := 0, fsm := .error }

/-- 60_exceptions.md R119: IDLE, DONE and ERROR, with ERR_CODE and DST_LEN, stay through every step but a start or reset. -/
def Obligations.OnlyAStartOrResetLeavesDoneAndError : Prop :=
  ∀ s t : State, s.busy = false → step s = .next t →
    (∀ e es, s.inbox = e :: es → e ≠ .reset ∧ ¬ StartsOperation e) →
    t.fsm = s.fsm ∧ t.errCode = s.errCode ∧ t.wp = s.wp

/-- 60_exceptions.md R126: no step is enabled in IDLE, DONE and ERROR, and all state survives there. The model's choices in
it: that the core's turn is then a step that answers the state unchanged (DEDUCED, log entry 2), N, CH, OC and CEND, which
R32 calls unspecified there, among it (DESIGN CHOICE, log entry 12). -/
def Obligations.NothingHappensWhileNotBusy : Prop :=
  ∀ s : State, s.busy = false →
    (s.inbox = [] → step s = .next s) ∧
    ∀ es, s.inbox = .wait :: es → step s = .next { s with inbox := es }

/-- 10_state.md R11: the register map, unmapped offsets, and the accesses that are refused. -/
def Obligations.RegisterMap : Prop :=
  ∀ (s : State) (size : Nat) (off v : Word) (es : List HostEvent),
    (s.inbox = .regRead size off :: es →
      if size = 4 ∧ off.toNat % 4 = 0 then
        ∃ x, step s = .next { s with inbox := es, readData := some x } ∧
          (off = 0x00#32 → x = 0) ∧ (off = 0x04#32 → x = s.statusWord) ∧
          (off = 0x08#32 → x = s.errCode.code.setWidth 32) ∧ (off = 0x0C#32 → x = s.width) ∧
          (off = 0x10#32 → x = s.height) ∧ (off = 0x14#32 → x = s.channels.setWidth 32) ∧
          (off = 0x18#32 → x = s.colorspace.setWidth 32) ∧ (off = 0x1C#32 → x = s.desiredChannels.setWidth 32) ∧
          (off = 0x20#32 → x = s.srcLen) ∧ (off = 0x24#32 → x = s.wp) ∧ (0x24 < off.toNat → x = 0)
      else step s = .refused .registerAccess) ∧
    (s.inbox = .regWrite size off v :: es →
      if size = 4 ∧ off.toNat % 4 = 0 then
        ∃ t, step s = .next t ∧
          (off = 0x04#32 ∨ off = 0x08#32 ∨ off = 0x24#32 ∨ 0x24 < off.toNat → t = { s with inbox := es })
      else step s = .refused .registerAccess)

/-- 10_state.md R15 to R20: what a write while not BUSY leaves in each writable register; nothing else changes. -/
def Obligations.RegisterWritesWhileNotBusy : Prop :=
  ∀ (s : State) (off v : Word) (es : List HostEvent), s.inbox = .regWrite 4 off v :: es → s.busy = false →
    (off = 0x00#32 → v.extractLsb' 0 2 = 0b00#2 → step s = .next { s with inbox := es }) ∧
    (off = 0x0C#32 → step s = .next { s with inbox := es, width := v }) ∧
    (off = 0x10#32 → step s = .next { s with inbox := es, height := v }) ∧
    (off = 0x14#32 → step s = .next { s with inbox := es, channels := v.setWidth 8 }) ∧
    (off = 0x18#32 → step s = .next { s with inbox := es, colorspace := v.setWidth 8 }) ∧
    (off = 0x1C#32 → step s = .next { s with inbox := es, desiredChannels := v.setWidth 8 }) ∧
    (off = 0x20#32 → step s = .next { s with inbox := es, srcLen := v })

/-- 10_state.md R22: while BUSY a register write has no effect; a register read is always allowed, without side effect. -/
def Obligations.BusyIgnoresRegisterWrites : Prop :=
  ∀ (s : State) (off v : Word) (es : List HostEvent), off.toNat % 4 = 0 →
    (s.inbox = .regWrite 4 off v :: es → s.busy = true → step s = .next { s with inbox := es }) ∧
    (s.inbox = .regRead 4 off :: es →
      ∃ t, step s = .next t ∧ { t with readData := s.readData } = { s with inbox := es })

/-- 10_state.md R13, 60_exceptions.md R120: the STATUS bits, of which at most one is set, and the done signal. -/
def Obligations.StatusIsAViewOfTheStateMachine : Prop :=
  ∀ s : State,
    (s.statusWord.getLsbD 0 = true ↔ s.fsm = .eHdr ∨ s.fsm = .ePix ∨ s.fsm = .eEnd ∨ s.fsm = .dPix) ∧
    (s.statusWord.getLsbD 1 = true ↔ s.fsm = .done) ∧ (s.statusWord.getLsbD 2 = true ↔ s.fsm = .error) ∧
    (s.statusWord = 0#32 ∨ s.statusWord = 1#32 ∨ s.statusWord = 2#32 ∨ s.statusWord = 4#32) ∧
    (s.statusWord = 0#32 ↔ s.fsm = .idle) ∧
    s.doneSignal = (s.statusWord.getLsbD 1 || s.statusWord.getLsbD 2)

/-- 20_memory.md R35, R47: what the host's accesses to SRC and DST do while not BUSY; a write to SRC while BUSY is
refused (S4; DEDUCED, log entry 9), and a read of DST while BUSY returns some byte (S5) and leaves the core alone (DEDUCED,
log entry 7). The model's choice in it: a read of SRC while BUSY returns some byte and leaves the core alone, which no rule
states (DESIGN CHOICE, log entry 8). -/
def Obligations.HostMemoryAccesses : Prop :=
  ∀ (s : State) (a : Word) (v : Byte) (es : List HostEvent),
    (s.inbox = .srcWrite a v :: es → s.busy = false → s.src.wf = true →
      ∃ t, step s = .next t ∧ (∀ x, t.src.get x = if x = a.toNat then v else s.src.get x) ∧
        { t with src := s.src } = { s with inbox := es }) ∧
    (s.inbox = .srcWrite a v :: es → s.busy = true → step s = .refused .srcWriteWhileBusy) ∧
    (s.inbox = .srcRead a :: es → s.busy = false →
      step s = .next { s with inbox := es, readData := some ((s.src.get a.toNat).setWidth 32) }) ∧
    (s.inbox = .dstRead a :: es → s.busy = false →
      step s = .next { s with inbox := es, readData := some ((s.dst.get a.toNat).setWidth 32) }) ∧
    (s.inbox = .srcRead a :: es ∨ s.inbox = .dstRead a :: es → s.busy = true →
      ∃ b : Byte, step s = .next { s with inbox := es, readData := some (b.setWidth 32), draws := s.draws + 1 })

/-! ### Reset -/

/-- 70_reset_and_hazards.md R127: reset in any state. DST bytes are as before, but for those a running operation may have
written (93_implementation_defined.md S3: below 5·N + 22 for an encode, below N·OC for a decode). -/
def Obligations.ResetInAnyState : Prop :=
  ∀ (s : State) (es : List HostEvent), s.inbox = .reset :: es →
    ∃ t, step s = .next t ∧ t.fsm = .idle ∧ t.errCode = .none ∧ t.width = 0 ∧ t.height = 0 ∧ t.channels = 0 ∧
      t.colorspace = 0 ∧ t.desiredChannels = 0 ∧ t.srcLen = 0 ∧ t.wp = 0 ∧ (∀ off, regValue t off = 0) ∧
      t.doneSignal = false ∧ t.src = s.src ∧ t.inbox = es ∧ t.readData = s.readData ∧
      ∀ a, s.busy = false ∨ (s.fsm = .dPix ∧ s.n.toNat * s.oc.toNat ≤ a) ∨
          (s.fsm ≠ .dPix ∧ 5 * s.n.toNat + 22 ≤ a) →
        t.dst.get a = s.dst.get a

/-- 70_reset_and_hazards.md R127 (its table): what the state right after reset shows the host. -/
def Obligations.ResetStateShowsZero : Prop :=
  State.reset.fsm = .idle ∧ (∀ off, regValue State.reset off = 0) ∧ State.reset.doneSignal = false ∧
    State.reset.wp = 0 ∧ State.reset.errCode = .none

/-! ### The whole machine -/

/-- The invariant holds right after reset. -/
def Obligations.ResetMeetsTheInvariant : Prop := Inv State.reset

/-- Every step, the core's or the host's, keeps the invariant: canonical memories, pointers where the rules put them
(R28, R30 to R32, R45), the output bound (R92), alpha 255 in a 3-channel encode (R72). -/
def Obligations.EveryStepKeepsTheInvariant : Prop :=
  ∀ s t : State, Inv s → step s = .next t → Inv t

/-- 60_exceptions.md R118, 20_memory.md R44, R45: from the invariant a step stops only on a host action the spec gives
no meaning, never on the core's own account. -/
def Obligations.StepStopsOnlyOnARefusedHostAction : Prop :=
  ∀ s : State, Inv s →
    (∃ t, step s = .next t) ∨
    (∃ size off es, s.inbox = .regRead size off :: es ∧ ¬ (size = 4 ∧ off.toNat % 4 = 0) ∧
      step s = .refused .registerAccess) ∨
    (∃ size off v es, s.inbox = .regWrite size off v :: es ∧ ¬ (size = 4 ∧ off.toNat % 4 = 0) ∧
      step s = .refused .registerAccess) ∨
    (∃ a v es, s.inbox = .srcWrite a v :: es ∧ s.busy = true ∧ step s = .refused .srcWriteWhileBusy)

/-- 20_memory.md R36: a step of the core never writes SRC; no rule of the encoder's or decoder's steps writes a host register
(41_encoder.md R82 to R91, 42_decoder.md R95 to R105); R32: N, CH, OC and CEND hold for the whole operation. The model's
choices in it: those four kept also in steps that enter DONE or stay in IDLE, DONE or ERROR, where R32 leaves them unspecified
(DESIGN CHOICE, log entry 12), and the step that changes nothing there (DEDUCED, log entry 2). -/
def Obligations.CoreStepsKeepSrcAndRegisters : Prop :=
  ∀ s t : State, CoreTurn s → step s = .next t → t.src = s.src ∧ SameRegisters s t ∧ SameLatches s t ∧ SameHost s t

/-- 20_memory.md R46: a step of the core writes DST from the old `wp` up to the new one and nowhere else. -/
def Obligations.DstIsWrittenInOrder : Prop :=
  ∀ s t : State, Inv s → CoreTurn s → step s = .next t →
    s.wp.toNat ≤ t.wp.toNat ∧ ∀ a, a < s.wp.toNat ∨ t.wp.toNat ≤ a → t.dst.get a = s.dst.get a

/-- 20_memory.md R36, R44, R45: no step of the core depends on a byte of SRC at or above SRC_LEN. -/
def Obligations.CoreReadsSrcBelowItsLength : Prop :=
  ∀ (s t : State) (m : Memory), Inv s → CoreTurn s → (∀ a, a < s.srcLen.toNat → m.get a = s.src.get a) →
    step s = .next t → step { s with src := m } = .next { t with src := m }

/-- 42_decoder.md R106: `rp` moves forward by the length of the chunk read, or not at all, and never past CEND + 4. -/
def Obligations.ReadPointerMovesForward : Prop :=
  ∀ s t : State, Inv s → CoreTurn s → s.fsm = .dPix → step s = .next t →
    t.rp.toNat = s.rp.toNat +
      (if s.run = 0 ∧ s.rp.toNat < s.cend.toNat then (classOf (s.src.get s.rp.toNat)).length else 0) ∧
    t.rp.toNat ≤ s.cend.toNat + 4

/-- 42_decoder.md R107: whatever SRC holds after the header, a decode reaches DONE after exactly the pixels that are
left, with N·OC bytes of output and no error. -/
def Obligations.DecodeReachesDone : Prop :=
  ∀ s : State, Inv s → CoreTurn s → s.fsm = .dPix →
    (∃ t, stepN (s.n.toNat - s.i.toNat) s = .next t ∧ t.fsm = .done ∧ t.errCode = s.errCode ∧
      t.wp.toNat = s.n.toNat * s.oc.toNat ∧ t.i = s.n) ∧
    ∀ k, k < s.n.toNat - s.i.toNat → ∃ u, stepN k s = .next u ∧ u.fsm = .dPix

/-- 60_exceptions.md R118, 41_encoder.md R92: an accepted encode reaches DONE after N + 2 steps, with no error and an
output within the bound. -/
def Obligations.EncodeReachesDoneWithinTheBound : Prop :=
  ∀ s : State, Inv s → CoreTurn s → s.fsm = .eHdr →
    ∃ t, stepN (s.n.toNat + 2) s = .next t ∧ t.fsm = .done ∧ t.errCode = s.errCode ∧ 23 ≤ t.wp.toNat ∧
      t.wp.toNat ≤ s.n.toNat * (s.ch.toNat + 1) + 14 + 8

/-- 41_encoder.md R93: nothing left over from earlier operations reaches an encode's result; DST above DST_LEN is kept. -/
def Obligations.EncodeDependsOnItsInputsAlone : Prop :=
  ∀ s s' : State, Inv s → Inv s' → s.busy = false → s'.busy = false →
    s.inbox = [.regWrite 4 0 1] → s'.inbox = [.regWrite 4 0 1] →
    s.width = s'.width → s.height = s'.height → s.channels = s'.channels → s.colorspace = s'.colorspace →
    s.srcLen = s'.srcLen → (∀ a, a < s.srcLen.toNat → s.src.get a = s'.src.get a) →
    ∀ (k : Nat) (t t' : State), stepN (k + 1) s = .next t → stepN (k + 1) s' = .next t' →
      t.fsm = t'.fsm ∧ t.errCode = t'.errCode ∧ t.wp = t'.wp ∧
      (∀ a, a < t.wp.toNat → t.dst.get a = t'.dst.get a) ∧ ∀ a, t.wp.toNat ≤ a → t.dst.get a = s.dst.get a

/-- 42_decoder.md R108: an accepted encode reaches DONE, and a decode of its output, with DESIRED_CHANNELS = 0, reaches
DONE with the encode's header and the encode's input bytes. -/
def Obligations.DecodeOfEncodeRoundTrip : Prop :=
  ∀ s s1 : State, Inv s → s.busy = false → s.inbox = [.regWrite 4 0 1] → step s = .next s1 → s1.fsm = .eHdr →
    ∃ e, stepN (s1.n.toNat + 2) s1 = .next e ∧ e.fsm = .done ∧
      ∀ d d1 : State, Inv d → d.busy = false → d.inbox = [.regWrite 4 0 2] → d.desiredChannels = 0 →
        d.srcLen = e.wp → (∀ a, a < e.wp.toNat → d.src.get a = e.dst.get a) → step d = .next d1 →
        ∃ t, stepN s1.n.toNat d1 = .next t ∧ t.fsm = .done ∧ t.errCode = .none ∧
          t.width = s.width ∧ t.height = s.height ∧ t.channels = s.channels ∧ t.colorspace = s.colorspace ∧
          t.wp = s.srcLen ∧ SameBytes t.dst s.src s.srcLen.toNat

/-- 10_state.md R32: an accepted start computes N, CH, OC and CEND, and they hold for the whole operation. Of OC in an encode,
whose value no rule states (R19), only that it holds. The model's reading in it: CH of a decode is CHANNELS (DEDUCED, log
entry 23). -/
def Obligations.LatchesHoldForTheWholeOperation : Prop :=
  ∀ s t : State, step s = .next t →
    (LatchInv s → LatchInv t) ∧ (s.busy = true → t.busy = true → SameLatches s t)

/-- 10_state.md R19: the encoder does not read DESIRED_CHANNELS, neither its start nor its steps. -/
def Obligations.EncoderDoesNotReadDesiredChannels : Prop :=
  ∀ (s t : State) (d : Byte), EncoderTurn s → step s = .next t →
    step { s with desiredChannels := d } = .next { t with desiredChannels := d }
end

