-- ==== Sys2Proof/Laws/Memory.lean ====
section
/-! SUPPORT. Laws of byte memories, spans and DST: what a read gives after a write, and that the canonical form is kept. -/

namespace Sys2Proof.Machine

theorem Memory.wfFrom_mono {m : Memory} {lo lo' : Nat} (h : lo' ≤ lo) (hm : Memory.wfFrom lo m = true) :
    Memory.wfFrom lo' m = true := by
  cases m with
  | nil => rfl
  | cons c m =>
    simp only [Memory.wfFrom, Bool.and_eq_true, decide_eq_true_eq] at hm ⊢
    exact ⟨⟨⟨h.trans hm.1.1.1, hm.1.1.2⟩, hm.1.2⟩, hm.2⟩

/-- Below a canonical list's bound nothing is listed. -/
theorem Memory.get_below {m : Memory} {lo a : Nat} (hm : Memory.wfFrom lo m = true) (h : a < lo) :
    Memory.get m a = Memory.unlisted := by
  induction m generalizing lo with
  | nil => rfl
  | cons c m ih =>
    simp only [Memory.wfFrom, Bool.and_eq_true, decide_eq_true_eq] at hm
    have : a ≠ c.1 := by omega
    simp [Memory.get, this, ih hm.2 (by omega)]

theorem Memory.get_set_from {m : Memory} {lo : Nat} (hm : Memory.wfFrom lo m = true) (a x : Nat) (v : Byte) :
    (m.set a v).get x = if x = a then v else m.get x := by
  induction m generalizing lo with
  | nil => by_cases hv : v = Memory.unlisted <;> simp [Memory.set, Memory.get, hv]
  | cons c m ih =>
    simp only [Memory.wfFrom, Bool.and_eq_true, decide_eq_true_eq] at hm
    obtain ⟨k, w⟩ := c
    by_cases hak : a < k
    · by_cases hv : v = Memory.unlisted
      · by_cases hx : x = a
        · subst hx
          have := Memory.get_below hm.2 (a := x) (by omega)
          simp [Memory.set, hak, hv, Memory.get, this, Nat.ne_of_lt hak]
        · simp [Memory.set, hak, hv, hx]
      · simp [Memory.set, hak, hv, Memory.get]
    · by_cases hae : a = k
      · subst hae
        by_cases hv : v = Memory.unlisted
        · by_cases hx : x = a
          · subst hx
            simp [Memory.set, hv, Memory.get_below hm.2 (a := x) (by omega)]
          · simp [Memory.set, hv, hx, Memory.get]
        · by_cases hx : x = a <;> simp [Memory.set, hv, hx, Memory.get]
      · simp only [Memory.set, hak, hae, if_false, Memory.get, ih hm.2]
        by_cases hx : x = k
        · subst hx; simp [Ne.symm hae]
        · simp [hx]

/-- Read after write. -/
theorem Memory.get_set {m : Memory} (hm : m.wf = true) (a x : Nat) (v : Byte) :
    (m.set a v).get x = if x = a then v else m.get x := Memory.get_set_from hm a x v

theorem Memory.set_wfFrom {m : Memory} {lo a : Nat} {v : Byte} (hm : Memory.wfFrom lo m = true) (hlo : lo ≤ a)
    (ha : a < Config.addressSpace) : Memory.wfFrom lo (m.set a v) = true := by
  induction m generalizing lo with
  | nil => by_cases hv : v = Memory.unlisted <;> simp [Memory.set, Memory.wfFrom, hv, hlo, ha]
  | cons c m ih =>
    simp only [Memory.wfFrom, Bool.and_eq_true, decide_eq_true_eq] at hm
    obtain ⟨k, w⟩ := c
    obtain ⟨⟨⟨h1, h2⟩, h3⟩, h4⟩ := hm
    simp only [Memory.set]
    split
    · split
      · simp_all [Memory.wfFrom]
      · simp_all [Memory.wfFrom]
    · split
      · subst_vars
        split
        · exact Memory.wfFrom_mono (by simp at *; omega) h4
        · simp_all [Memory.wfFrom]
      · simp only [Memory.wfFrom, Bool.and_eq_true, decide_eq_true_eq]
        exact ⟨⟨⟨h1, h2⟩, h3⟩, ih h4 (by simp at *; omega)⟩

/-- A write keeps the canonical form. -/
theorem Memory.set_wf {m : Memory} {a : Nat} {v : Byte} (hm : m.wf = true) (ha : a < Config.addressSpace) :
    (m.set a v).wf = true := Memory.set_wfFrom hm (Nat.zero_le a) ha

theorem Memory.setBytes_wf {m : Memory} {a : Nat} {bs : List Byte} (hm : m.wf = true)
    (h : a + bs.length ≤ Config.addressSpace) : (m.setBytes a bs).wf = true := by
  induction bs generalizing m a with
  | nil => exact hm
  | cons b bs ih =>
    simp only [List.length_cons] at h
    exact ih (Memory.set_wf hm (by omega)) (by omega)

/-- What a read gives after bytes have been written. -/
theorem Memory.get_setBytes {m : Memory} {a : Nat} {bs : List Byte} (hm : m.wf = true)
    (h : a + bs.length ≤ Config.addressSpace) (x : Nat) :
    (m.setBytes a bs).get x = if a ≤ x ∧ x < a + bs.length then bs.getD (x - a) 0 else m.get x := by
  induction bs generalizing m a with
  | nil => simp [Memory.setBytes, show ¬ (a ≤ x ∧ x < a) by omega]
  | cons b bs ih =>
    simp only [List.length_cons] at h
    rw [Memory.setBytes, List.length_cons,
      ih (Memory.set_wf hm (by omega)) (show a + 1 + bs.length ≤ Config.addressSpace by omega), Memory.get_set hm]
    by_cases h1 : x = a
    · subst h1; simp
    · by_cases h2 : a + 1 ≤ x ∧ x < a + 1 + bs.length
      · have h3 : x - a = (x - (a + 1)) + 1 := by omega
        rw [if_pos h2, if_pos (by omega), h3]; rfl
      · rw [if_neg h2, if_neg h1, if_neg (by omega)]

theorem Memory.ext_from {m m' : Memory} {lo : Nat} (hm : Memory.wfFrom lo m = true) (hm' : Memory.wfFrom lo m' = true)
    (h : ∀ a, m.get a = m'.get a) : m = m' := by
  induction m generalizing lo m' with
  | nil =>
    cases m' with
    | nil => rfl
    | cons c m' =>
      simp only [Memory.wfFrom, Bool.and_eq_true, decide_eq_true_eq] at hm'
      have := h c.1
      simp [Memory.get] at this
      exact absurd this.symm hm'.1.2
  | cons c m ih =>
    simp only [Memory.wfFrom, Bool.and_eq_true, decide_eq_true_eq] at hm
    cases m' with
    | nil =>
      have := h c.1
      simp [Memory.get] at this
      exact absurd this hm.1.2
    | cons c' m' =>
      simp only [Memory.wfFrom, Bool.and_eq_true, decide_eq_true_eq] at hm'
      obtain ⟨k, v⟩ := c
      obtain ⟨k', v'⟩ := c'
      have hk : k = k' := by
        rcases Nat.lt_trichotomy k k' with hlt | heq | hgt
        · have := h k
          simp [Memory.get, Nat.ne_of_lt hlt, Memory.get_below hm'.2 (a := k) (by simp; omega)] at this
          exact absurd this hm.1.2
        · exact heq
        · have := h k'
          simp [Memory.get, Nat.ne_of_lt hgt, Memory.get_below hm.2 (a := k') (by simp; omega)] at this
          exact absurd this.symm hm'.1.2
      subst hk
      have hv : v = v' := by simpa [Memory.get] using h k
      subst hv
      refine congrArg _ (ih hm.2 hm'.2 fun a => ?_)
      by_cases ha : a = k
      · subst ha
        rw [Memory.get_below hm.2 (by simp), Memory.get_below hm'.2 (by simp)]
      · simpa [Memory.get, ha] using h a

/-- Equal memories are equal data. -/
theorem Memory.ext {m m' : Memory} (hm : m.wf = true) (hm' : m'.wf = true) (h : ∀ a, m.get a = m'.get a) : m = m' :=
  Memory.ext_from hm hm' h

theorem Memory.get_dropBelow (b : Nat) (m : Memory) (x : Nat) :
    (m.dropBelow b).get x = if x < b then Memory.unlisted else m.get x := by
  induction m with
  | nil => simp [Memory.dropBelow, Memory.get]
  | cons c m ih =>
    obtain ⟨k, v⟩ := c
    simp only [Memory.dropBelow] at ih
    by_cases hk : b ≤ k
    · by_cases hx : x = k
      · subst hx; simp [Memory.dropBelow, Memory.get, hk]
      · simp [Memory.dropBelow, Memory.get, hk, hx, ih]
    · by_cases hx : x = k
      · subst hx; simp [Memory.dropBelow, hk, ih, show x < b by omega]
      · simp [Memory.dropBelow, Memory.get, hk, hx, ih]

theorem Memory.dropBelow_wfFrom {m : Memory} {lo b : Nat} (hm : Memory.wfFrom lo m = true) :
    Memory.wfFrom lo (m.dropBelow b) = true := by
  induction m generalizing lo with
  | nil => rfl
  | cons c m ih =>
    simp only [Memory.wfFrom, Bool.and_eq_true, decide_eq_true_eq] at hm
    by_cases hk : b ≤ c.1
    · have := ih hm.2
      simp only [Memory.dropBelow] at this
      simp [Memory.dropBelow, Memory.wfFrom, hk, hm.1, this]
    · have := ih hm.2
      simp only [Memory.dropBelow] at this
      simpa [Memory.dropBelow, hk] using Memory.wfFrom_mono (by omega : lo ≤ c.1 + 1) this

theorem Memory.dropBelow_wf {m : Memory} (b : Nat) (hm : m.wf = true) : (m.dropBelow b).wf = true :=
  Memory.dropBelow_wfFrom hm

theorem spanDraw_append (us vs : List Span) (x : Nat) :
    spanDraw (us ++ vs) x = (spanDraw us x).or (spanDraw vs x) := by
  induction us with
  | nil => simp [spanDraw]
  | cons u us ih => by_cases h : u.lo ≤ x ∧ x < u.hi <;> simp [spanDraw, h, ih]

theorem spanDraw_spanOf (lo hi k x : Nat) : spanDraw (spanOf lo hi k) x = if lo ≤ x ∧ x < hi then some k else none := by
  by_cases h : lo < hi
  · simp [spanOf, h, spanDraw]
  · simp [spanOf, h, spanDraw]; omega

/-- A written address lies in no span any more; every other address is as before. -/
theorem spanDraw_spansWithout (a : Nat) (us : List Span) (x : Nat) :
    spanDraw (spansWithout a us) x = if x = a then none else spanDraw us x := by
  induction us with
  | nil => simp [spansWithout, spanDraw]
  | cons u us ih =>
    rw [spansWithout, spanDraw_append, ih]
    by_cases hu : u.lo ≤ a ∧ a < u.hi
    · rw [if_pos hu, spanDraw_append, spanDraw_spanOf, spanDraw_spanOf]
      by_cases hx : x = a
      · subst hx; simp
      · by_cases h1 : u.lo ≤ x ∧ x < u.hi
        · rcases Nat.lt_or_gt_of_ne hx with h2 | h2
          · simp [spanDraw, h1, h2, hx]
          · simp [spanDraw, h1, hx, show ¬ x < a by omega, show a + 1 ≤ x by omega]
        · rw [if_neg (by omega : ¬ (u.lo ≤ x ∧ x < a)), if_neg (by omega : ¬ (a + 1 ≤ x ∧ x < u.hi))]
          simp [spanDraw, h1, hx]
    · rw [if_neg hu]
      by_cases hx : x = a
      · subst hx; simp [spanDraw, hu]
      · by_cases h1 : u.lo ≤ x ∧ x < u.hi <;> simp [spanDraw, h1, hx]

theorem spanDraw_spansFrom (b : Nat) (us : List Span) (x : Nat) :
    spanDraw (spansFrom b us) x = if x < b then none else spanDraw us x := by
  induction us with
  | nil => simp [spansFrom, spanDraw]
  | cons u us ih =>
    rw [spansFrom, spanDraw_append, ih, spanDraw_spanOf]
    by_cases hx : x < b
    · rw [if_neg (by omega : ¬ (max u.lo b ≤ x ∧ x < u.hi))]
      simp [hx]
    · by_cases h1 : u.lo ≤ x ∧ x < u.hi
      · simp [spanDraw, h1, hx, show b ≤ x by omega]
      · rw [if_neg (by omega : ¬ (max u.lo b ≤ x ∧ x < u.hi))]
        simp [spanDraw, h1, hx]

theorem spansWfFrom_mono {us : List Span} {lo lo' : Nat} (h : lo' ≤ lo) (hu : spansWfFrom lo us = true) :
    spansWfFrom lo' us = true := by
  cases us with
  | nil => rfl
  | cons u us =>
    simp only [spansWfFrom, Bool.and_eq_true, decide_eq_true_eq] at hu ⊢
    exact ⟨⟨⟨h.trans hu.1.1.1, hu.1.1.2⟩, hu.1.2⟩, hu.2⟩

/-- An empty or fitting span before a canonical list. -/
theorem spansWfFrom_spanOf {us : List Span} {lo l h k m : Nat} (hl : lo ≤ l) (hh : h ≤ Config.addressSpace)
    (hm : lo ≤ m) (hhm : h ≤ m) (hu : spansWfFrom m us = true) : spansWfFrom lo (spanOf l h k ++ us) = true := by
  by_cases hlt : l < h
  · simp [spanOf, hlt, spansWfFrom, hl, hh, spansWfFrom_mono hhm hu]
  · simpa [spanOf, hlt] using spansWfFrom_mono hm hu

theorem spansWithout_wfFrom {us : List Span} {lo a : Nat} (hu : spansWfFrom lo us = true) :
    spansWfFrom lo (spansWithout a us) = true := by
  induction us generalizing lo with
  | nil => rfl
  | cons u us ih =>
    simp only [spansWfFrom, Bool.and_eq_true, decide_eq_true_eq] at hu
    obtain ⟨⟨⟨h1, h2⟩, h3⟩, h4⟩ := hu
    rw [spansWithout]
    split
    · rename_i ha
      rw [List.append_assoc]
      refine spansWfFrom_spanOf (m := a) h1 (by omega) (by omega) (by omega) ?_
      exact spansWfFrom_spanOf (m := u.hi) (by omega) h3 (by omega) (by omega) (ih h4)
    · simp [spansWfFrom, h1, h2, h3, ih h4]

theorem spansFrom_wfFrom {us : List Span} {lo b : Nat} (hu : spansWfFrom lo us = true) :
    spansWfFrom (max lo b) (spansFrom b us) = true := by
  induction us generalizing lo with
  | nil => rfl
  | cons u us ih =>
    simp only [spansWfFrom, Bool.and_eq_true, decide_eq_true_eq] at hu
    obtain ⟨⟨⟨h1, h2⟩, h3⟩, h4⟩ := hu
    exact spansWfFrom_spanOf (m := max u.hi b) (by omega) h3 (by omega) (by omega) (ih h4)

/-- The parts of a canonical DST. -/
theorem DstMemory.wf_iff {d : DstMemory} :
    d.wf = true ↔ d.cells.wf = true ∧ spansWfFrom 0 d.unknown = true ∧
      ∀ c ∈ d.cells, spanDraw d.unknown c.1 = none := by
  simp [DstMemory.wf, and_assoc]

theorem Memory.mem_set {m : Memory} {a : Nat} {v : Byte} {c : Host.Cell} (h : c ∈ m.set a v) : c.1 = a ∨ c ∈ m := by
  induction m with
  | nil => by_cases hv : v = Memory.unlisted <;> simp_all [Memory.set]
  | cons d m ih =>
    simp only [Memory.set] at h
    split at h
    · split at h
      · exact .inr h
      · rcases List.mem_cons.1 h with h | h
        · exact .inl (by rw [h])
        · exact .inr h
    · split at h
      · split at h
        · exact .inr (List.mem_cons_of_mem _ h)
        · rcases List.mem_cons.1 h with h | h
          · exact .inl (by rw [h])
          · exact .inr (List.mem_cons_of_mem _ h)
      · rcases List.mem_cons.1 h with h | h
        · exact .inr (by simp [h])
        · exact (ih h).imp id (List.mem_cons_of_mem _)

/-- Read after write in DST. -/
theorem DstMemory.get_set {d : DstMemory} (hd : d.wf = true) (a x : Nat) (v : Byte) :
    (d.set a v).get x = if x = a then v else d.get x := by
  have hc := (DstMemory.wf_iff.1 hd).1
  by_cases hx : x = a
  · simp [DstMemory.get, DstMemory.set, spanDraw_spansWithout, hx, Memory.get_set hc]
  · simp [DstMemory.get, DstMemory.set, spanDraw_spansWithout, hx, Memory.get_set hc]

theorem DstMemory.set_wf {d : DstMemory} {a : Nat} {v : Byte} (hd : d.wf = true) (ha : a < Config.addressSpace) :
    (d.set a v).wf = true := by
  obtain ⟨h1, h2, h3⟩ := DstMemory.wf_iff.1 hd
  refine DstMemory.wf_iff.2 ⟨Memory.set_wf h1 ha, spansWithout_wfFrom h2, fun c hc => ?_⟩
  rw [DstMemory.set, spanDraw_spansWithout]
  split
  · rfl
  · exact h3 c ((Memory.mem_set hc).resolve_left ‹_›)

theorem DstMemory.setBytes_wf {d : DstMemory} {a : Nat} {bs : List Byte} (hd : d.wf = true)
    (h : a + bs.length ≤ Config.addressSpace) : (d.setBytes a bs).wf = true := by
  induction bs generalizing d a with
  | nil => exact hd
  | cons b bs ih =>
    simp only [List.length_cons] at h
    exact ih (DstMemory.set_wf hd (by omega)) (by omega)

/-- What DST reads after bytes have been written: those bytes there, everything else as before. -/
theorem DstMemory.get_setBytes {d : DstMemory} {a : Nat} {bs : List Byte} (hd : d.wf = true)
    (h : a + bs.length ≤ Config.addressSpace) (x : Nat) :
    (d.setBytes a bs).get x = if a ≤ x ∧ x < a + bs.length then bs.getD (x - a) 0 else d.get x := by
  induction bs generalizing d a with
  | nil => simp [DstMemory.setBytes, show ¬ (a ≤ x ∧ x < a) by omega]
  | cons b bs ih =>
    simp only [List.length_cons] at h
    rw [DstMemory.setBytes, List.length_cons,
      ih (DstMemory.set_wf hd (by omega)) (show a + 1 + bs.length ≤ Config.addressSpace by omega), DstMemory.get_set hd]
    by_cases h1 : x = a
    · subst h1; simp
    · by_cases h2 : a + 1 ≤ x ∧ x < a + 1 + bs.length
      · have h3 : x - a = (x - (a + 1)) + 1 := by omega
        rw [if_pos h2, if_pos (by omega), h3]; rfl
      · rw [if_neg h2, if_neg h1, if_neg (by omega)]

/-- What DST reads after a cut: free values below the bound, everything else as before. -/
theorem DstMemory.get_cutBelow (d : DstMemory) (b k x : Nat) :
    (d.cutBelow b k).get x = if x < b then Config.freeByte k x else d.get x := by
  by_cases hx : x < b
  · simp [DstMemory.get, DstMemory.cutBelow, spanDraw_append, spanDraw_spanOf, hx]
  · simp [DstMemory.get, DstMemory.cutBelow, spanDraw_append, spanDraw_spanOf, spanDraw_spansFrom, hx,
      Memory.get_dropBelow]

theorem DstMemory.cutBelow_wf {d : DstMemory} {b : Nat} (k : Nat) (hd : d.wf = true) (hb : b ≤ Config.addressSpace) :
    (d.cutBelow b k).wf = true := by
  obtain ⟨h1, h2, h3⟩ := DstMemory.wf_iff.1 hd
  refine DstMemory.wf_iff.2 ⟨Memory.dropBelow_wf b h1, ?_, fun c hc => ?_⟩
  · exact spansWfFrom_spanOf (m := max 0 b) (by omega) hb (by omega) (by omega) (spansFrom_wfFrom h2)
  · simp only [DstMemory.cutBelow, Memory.dropBelow, List.mem_filter, decide_eq_true_eq] at hc
    have : ¬ c.1 < b := by omega
    simp [DstMemory.cutBelow, spanDraw_append, spanDraw_spanOf, spanDraw_spansFrom, this, h3 c hc.1]

theorem Memory.getBytes_length (m : Memory) (a n : Nat) : (m.getBytes a n).length = n := by
  induction n generalizing a with
  | zero => rfl
  | succ n ih => simp [Memory.getBytes, ih]

end Sys2Proof.Machine
end

