-- ==== Sys2Proof/Laws/Ops.lean ====
section
/-! SUPPORT. One lemma per shared operation: everything it can do. -/

namespace Sys2Proof.Machine

open Sys2Proof.Safety

@[simp] theorem andThen_next (s : State) (f : State → Result) : andThen (.next s) f = f s := rfl
@[simp] theorem andThen_fault (r : Fault) (f : State → Result) : andThen (.fault r) f = .fault r := rfl
@[simp] theorem andThen_refused (r : Refusal) (f : State → Result) : andThen (.refused r) f = .refused r := rfl

/-- A composed operation that answers a next state went through one. -/
theorem andThen_eq_next {o : Result} {f : State → Result} {t : State} (h : andThen o f = .next t) :
    ∃ s, o = .next s ∧ f s = .next t := by
  cases o with
  | next s => exact ⟨s, rfl, h⟩
  | fault r => cases h
  | refused r => cases h

@[simp] theorem cacheRead_cacheWrite (s : State) (j k : Slot) (v : Word) :
    (s.cacheWrite j v).cacheRead k = if k = j then v else s.cacheRead k := by
  by_cases h : k = j
  · subst h; simp [State.cacheRead, State.cacheWrite]
  · have : j.toNat ≠ k.toNat := fun e => h (BitVec.eq_of_toNat_eq e.symm)
    simp [State.cacheRead, State.cacheWrite, this, h]

/-- Where there is room, a write to DST goes on. -/
theorem writeDst_room {a : Nat} {bs : List Byte} {s : State} (h : a + bs.length ≤ Config.addressSpace) :
    writeDst a bs s = .next { s with dst := s.dst.setBytes a bs } := by simp [writeDst, h]

/-- Where there is none, it faults. -/
theorem writeDst_full {a : Nat} {bs : List Byte} {s : State} (h : ¬ a + bs.length ≤ Config.addressSpace) :
    writeDst a bs s = .fault .dstAddress := by simp [writeDst, h]

/-- All a write to DST can answer with a next state. -/
theorem writeDst_next {a : Nat} {bs : List Byte} {s t : State} (h : writeDst a bs s = .next t) :
    a + bs.length ≤ Config.addressSpace ∧ t = { s with dst := s.dst.setBytes a bs } := by
  unfold writeDst at h
  split at h
  · cases h; exact ⟨‹_›, rfl⟩
  · cases h

/-- Where there is room, bytes are put at `wp`, which moves past them. -/
theorem putBytes_room {bs : List Byte} {s : State} (h : s.wp.toNat + bs.length ≤ Config.addressSpace) :
    putBytes bs s =
      .next { s with dst := s.dst.setBytes s.wp.toNat bs, wp := s.wp + BitVec.ofNat 32 bs.length } := by
  simp [putBytes, writeDst_room h]

/-- All that putting bytes at `wp` can answer with a next state. -/
theorem putBytes_next {bs : List Byte} {s t : State} (h : putBytes bs s = .next t) :
    s.wp.toNat + bs.length ≤ Config.addressSpace ∧
      t = { s with dst := s.dst.setBytes s.wp.toNat bs, wp := s.wp + BitVec.ofNat 32 bs.length } := by
  obtain ⟨u, hu, ht⟩ := andThen_eq_next h
  obtain ⟨hr, rfl⟩ := writeDst_next hu
  cases ht
  exact ⟨hr, rfl⟩

/-- The state after a D_PIX step that retires the pixel in `px`. -/
def retired (s : State) : State :=
  advancePixel { s with dst := s.dst.setBytes s.wp.toNat (pixelBytes s.px s.oc), wp := s.wp + s.oc.setWidth 32 }

/-- Where there is room for the pixel, the step ends in `retired`. -/
theorem retirePixel_room {s : State} (h : EmitRoom s) : retirePixel s = .next (retired s) := by
  simp [retirePixel, emitPixel, writeDst_room h, retired]

/-- All that the end of a D_PIX step can answer with a next state. -/
theorem retirePixel_next {s t : State} (h : retirePixel s = .next t) : EmitRoom s ∧ t = retired s := by
  by_cases hr : EmitRoom s
  · rw [retirePixel_room hr] at h; cases h; exact ⟨hr, rfl⟩
  · simp [retirePixel, emitPixel, writeDst_full hr] at h

/-- The end of a D_PIX step refuses nothing and faults only for want of room. -/
theorem retirePixel_full {s : State} (h : ¬ EmitRoom s) : retirePixel s = .fault .dstAddress := by
  simp [retirePixel, emitPixel, writeDst_full h]

theorem pixelBytes_length (p : Word) (oc : Byte) : (pixelBytes p oc).length = unitBytes oc := by
  by_cases h : oc = 4#8 <;> simp [pixelBytes, unitBytes, h]

/-- Room does not depend on the pixel. -/
theorem emitRoom_iff (s : State) : EmitRoom s ↔ s.wp.toNat + unitBytes s.oc ≤ Config.addressSpace := by
  rw [EmitRoom, pixelBytes_length]

/-- Where there is room for the pixel, a chunk that writes the cache ends in `retired`. -/
theorem storingChunk_room {len : Nat} {p : Word} {s : State} (h : EmitRoom s) :
    storingChunk len p s = .next (retired (storePixel (takeChunk len p s))) := by
  refine retirePixel_room ?_
  rw [emitRoom_iff] at h ⊢
  exact h

/-- All that a chunk that writes the cache can answer with a next state. -/
theorem storingChunk_next {len : Nat} {p : Word} {s t : State} (h : storingChunk len p s = .next t) :
    EmitRoom s ∧ t = retired (storePixel (takeChunk len p s)) := by
  obtain ⟨hr, ht⟩ := retirePixel_next h
  refine ⟨?_, ht⟩
  rw [emitRoom_iff] at hr ⊢
  exact hr

/-- Every chunk's step, where there is room: what it does before the pixel is retired, by class. -/
theorem exec_room {s : State} (h : EmitRoom s) (i : Instr) :
    exec i s = .next (retired (match i with
      | .rgb r g b => storePixel (takeChunk 4 (pack r g b (alpha s.px)) s)
      | .rgba r g b a => storePixel (takeChunk 5 (pack r g b a) s)
      | .index k => takeChunk 1 (s.cacheRead k) s
      | .diff dr dg db => storePixel (takeChunk 1 (shiftPixel s.px dr dg db) s)
      | .luma dg drg dbg => storePixel (takeChunk 2 (shiftPixel s.px (dg + drg) dg (dg + dbg)) s)
      | .run n => storePixel (takeChunk 1 s.px { s with run := BitVec.ofNat 6 (n - 1) }))) := by
  cases i with
  | rgb r g b => exact storingChunk_room h
  | rgba r g b a => exact storingChunk_room h
  | index k =>
    refine retirePixel_room ?_
    rw [emitRoom_iff] at h ⊢
    exact h
  | diff dr dg db => exact storingChunk_room h
  | luma dg drg dbg => exact storingChunk_room h
  | run n =>
    refine storingChunk_room ?_
    rw [emitRoom_iff] at h ⊢
    exact h

/-- Without a host action the step is the core's own. -/
theorem step_core {s : State} (h : s.inbox = []) : step s = coreStep s := by simp [step, nextStep, h]

/-- With a host action the step is that action. -/
theorem step_host {s : State} {e : HostEvent} {es : List HostEvent} (h : s.inbox = e :: es) :
    step s = hostStep e { s with inbox := es } := by simp [step, nextStep, h]

/-- Where there is room, the open run becomes its RUN chunk, and no run is open. -/
theorem emitRun_room {s : State} (h : s.wp.toNat + 1 ≤ Config.addressSpace) :
    emitRun s = .next { s with
      dst := s.dst.setBytes s.wp.toNat (encode (.run s.run.toNat)), wp := s.wp + 1, run := 0 } := by
  have : (encode (.run s.run.toNat)).length = 1 := rfl
  simp [emitRun, emitChunk, putBytes_room (bs := encode (.run s.run.toNat)) (s := s) (by rw [this]; exact h), this]

/-- All that flushing the run can answer with a next state. -/
theorem emitRun_next {s t : State} (h : emitRun s = .next t) :
    s.wp.toNat + 1 ≤ Config.addressSpace ∧
      t = { s with dst := s.dst.setBytes s.wp.toNat (encode (.run s.run.toNat)), wp := s.wp + 1, run := 0 } := by
  obtain ⟨u, hu, ht⟩ := andThen_eq_next h
  have hr := (putBytes_next hu).1
  have hr' : s.wp.toNat + 1 ≤ Config.addressSpace := hr
  rw [emitRun_room hr'] at h
  cases h
  exact ⟨hr', rfl⟩

/-- A chunk written at `wp` where there is room. -/
theorem emitChunk_room {i : Instr} {s : State} (h : s.wp.toNat + (encode i).length ≤ Config.addressSpace) :
    emitChunk i s = .next { s with
      dst := s.dst.setBytes s.wp.toNat (encode i), wp := s.wp + BitVec.ofNat 32 (encode i).length } := putBytes_room h

/-- What OC is latched as where DESIRED_CHANNELS is legal (R94's form of it). -/
theorem outputChannels_legal {d : Byte} (h : desiredLegal d = true) (ch : Byte) :
    outputChannels d ch = if d = 0#8 then ch else d := by
  simp [desiredLegal] at h
  rcases h with (rfl | rfl) | rfl <;> simp [outputChannels]

/-- Where SRC_LEN is at least 8, CEND is 8 below it (R32). -/
theorem endOfChunks_add {l : Word} (h : 8 ≤ l.toNat) : (endOfChunks l).toNat + 8 = l.toNat := by
  simp only [endOfChunks, if_pos h]
  bv_omega

/-- All that an encode start can do. -/
theorem encodeStart_cases (s : State) :
    (∃ c, c ≠ .none ∧ encodeStart s = raiseError c s) ∨
    (s.srcLen ≠ 0 ∧ headerFieldsValid s.width s.height s.channels s.colorspace = true ∧
      s.srcLen.toNat = s.width.toNat * s.height.toNat * s.channels.toNat ∧
      encodeStart s = encodeAccept s) := by
  unfold encodeStart
  split
  · exact .inl ⟨.nullInput, by decide, rfl⟩
  · split
    · exact .inl ⟨.invalidHeader, by decide, rfl⟩
    · split
      · exact .inl ⟨.lengthMismatch, by decide, rfl⟩
      · exact .inr ⟨‹_›, by simpa using ‹¬ headerFieldsValid _ _ _ _ = false›, by omega, rfl⟩

/-- All that a decode start can do. -/
theorem decodeStart_cases (s : State) :
    (∃ c, c ≠ .none ∧ decodeStart s = raiseError c s) ∨
    (desiredLegal s.desiredChannels = true ∧ Config.minStream ≤ s.srcLen.toNat ∧
      headerValid (s.src.getBe32 0) (s.src.getBe32 4) (s.src.getBe32 8) (s.src.get 12) (s.src.get 13) = true ∧
      decodeStart s = decodeAccept (s.src.getBe32 4) (s.src.getBe32 8) (s.src.get 12) (s.src.get 13) s) := by
  unfold decodeStart
  split
  · exact .inl ⟨.badRequest, by decide, rfl⟩
  · split
    · exact .inl ⟨.nullInput, by decide, rfl⟩
    · split
      · exact .inl ⟨.bufferTooShort, by decide, rfl⟩
      · split
        · exact .inl ⟨.invalidHeader, by decide, rfl⟩
        · exact .inr ⟨by simpa using ‹¬ desiredLegal _ = false›, by omega,
            by simpa using ‹¬ headerValid _ _ _ _ _ = false›, rfl⟩

/-- The core's own step, state by state. -/
theorem coreStep_eHdr {s : State} (h : s.fsm = .eHdr) : coreStep s = encodeHeader s := by simp [coreStep, h]
theorem coreStep_ePix {s : State} (h : s.fsm = .ePix) : coreStep s = encodePixel s := by simp [coreStep, h]
theorem coreStep_eEnd {s : State} (h : s.fsm = .eEnd) : coreStep s = encodeEnd s := by simp [coreStep, h]
theorem coreStep_dPix {s : State} (h : s.fsm = .dPix) : coreStep s = decodePixel s := by simp [coreStep, h]
theorem coreStep_waiting {s : State} (h : s.busy = false) : coreStep s = .next s := by
  cases hf : s.fsm <;> simp_all [State.busy, Fsm.busy, coreStep]

/-- A failing chunk fetch is a fault on SRC, nothing else. -/
theorem fetchChunk_error {s : State} {f : Fault} (h : fetchChunk s = .error f) : f = .srcAddress := by
  unfold fetchChunk at h
  split at h <;> cases h <;> rfl

end Sys2Proof.Machine
end

