-- ==== Sys2Proof/Laws/PerInstr.lean ====
section
/-! SUPPORT. Facts of every instruction as syntax, one lemma per constructor. -/

namespace Sys2Proof.Laws.EncodedShape

/-- A well-formed instruction's bytes have its length, and their first byte has its class (R56, R57). -/
def Statement (i : Instr) : Prop :=
  i.wf = true → (encode i).length = i.length ∧ (encode i).head?.map classOf = some i.chunkClass

theorem classOf_index : ∀ k : Slot, classOf (0b00#2 ++ k) = .index := by decide

theorem classOf_diff : ∀ a b c : BitVec 2, classOf (0b01#2 ++ a ++ b ++ c) = .diff := by decide

theorem classOf_luma : ∀ k : BitVec 6, classOf (0b10#2 ++ k) = .luma := by decide

theorem classOf_run : ∀ k : BitVec 6, k.toNat ≤ 61 → classOf (0b11#2 ++ k) = .run := by decide

theorem rgb (r g b : Byte) : Statement (.rgb r g b) := fun _ => ⟨rfl, rfl⟩

theorem rgba (r g b a : Byte) : Statement (.rgba r g b a) := fun _ => ⟨rfl, rfl⟩

theorem index (k : Slot) : Statement (.index k) := fun _ => ⟨rfl, by simp [encode, Instr.chunkClass, classOf_index]⟩

theorem diff (dr dg db : Int) : Statement (.diff dr dg db) :=
  fun _ => ⟨rfl, by simpa [encode, Instr.chunkClass] using classOf_diff _ _ _⟩

theorem luma (dg drg dbg : Int) : Statement (.luma dg drg dbg) :=
  fun _ => ⟨rfl, by simpa [encode, Instr.chunkClass] using classOf_luma _⟩

theorem run (n : Nat) : Statement (.run n) := fun h => ⟨rfl, by
  have h : 1 ≤ n ∧ n ≤ 62 := of_decide_eq_true h
  have : (BitVec.ofNat 6 (n - 1)).toNat ≤ 61 := by simp; omega
  simpa [encode, Instr.chunkClass] using classOf_run _ this⟩

end Sys2Proof.Laws.EncodedShape
end

