-- ==== Sys2Proof/Laws/State.lean ====
section
/-! SUPPORT. What each named update of the state does to each field: true by definition, so that no proof unfolds one. -/

namespace Sys2Proof.Machine

@[simp] theorem cacheWrite_fsm (k : Slot) (v : Word) (s : State) : (s.cacheWrite k v).fsm = s.fsm := rfl
@[simp] theorem cacheWrite_errCode (k : Slot) (v : Word) (s : State) : (s.cacheWrite k v).errCode = s.errCode := rfl
@[simp] theorem cacheWrite_width (k : Slot) (v : Word) (s : State) : (s.cacheWrite k v).width = s.width := rfl
@[simp] theorem cacheWrite_height (k : Slot) (v : Word) (s : State) : (s.cacheWrite k v).height = s.height := rfl
@[simp] theorem cacheWrite_channels (k : Slot) (v : Word) (s : State) : (s.cacheWrite k v).channels = s.channels := rfl
@[simp] theorem cacheWrite_colorspace (k : Slot) (v : Word) (s : State) : (s.cacheWrite k v).colorspace = s.colorspace := rfl
@[simp] theorem cacheWrite_desiredChannels (k : Slot) (v : Word) (s : State) : (s.cacheWrite k v).desiredChannels = s.desiredChannels := rfl
@[simp] theorem cacheWrite_srcLen (k : Slot) (v : Word) (s : State) : (s.cacheWrite k v).srcLen = s.srcLen := rfl
@[simp] theorem cacheWrite_px (k : Slot) (v : Word) (s : State) : (s.cacheWrite k v).px = s.px := rfl
@[simp] theorem cacheWrite_pxPrev (k : Slot) (v : Word) (s : State) : (s.cacheWrite k v).pxPrev = s.pxPrev := rfl
@[simp] theorem cacheWrite_run (k : Slot) (v : Word) (s : State) : (s.cacheWrite k v).run = s.run := rfl
@[simp] theorem cacheWrite_i (k : Slot) (v : Word) (s : State) : (s.cacheWrite k v).i = s.i := rfl
@[simp] theorem cacheWrite_rp (k : Slot) (v : Word) (s : State) : (s.cacheWrite k v).rp = s.rp := rfl
@[simp] theorem cacheWrite_wp (k : Slot) (v : Word) (s : State) : (s.cacheWrite k v).wp = s.wp := rfl
@[simp] theorem cacheWrite_n (k : Slot) (v : Word) (s : State) : (s.cacheWrite k v).n = s.n := rfl
@[simp] theorem cacheWrite_ch (k : Slot) (v : Word) (s : State) : (s.cacheWrite k v).ch = s.ch := rfl
@[simp] theorem cacheWrite_oc (k : Slot) (v : Word) (s : State) : (s.cacheWrite k v).oc = s.oc := rfl
@[simp] theorem cacheWrite_cend (k : Slot) (v : Word) (s : State) : (s.cacheWrite k v).cend = s.cend := rfl
@[simp] theorem cacheWrite_cache (k : Slot) (v : Word) (s : State) : (s.cacheWrite k v).cache = s.cache.set k.toNat v k.isLt := rfl
@[simp] theorem cacheWrite_src (k : Slot) (v : Word) (s : State) : (s.cacheWrite k v).src = s.src := rfl
@[simp] theorem cacheWrite_dst (k : Slot) (v : Word) (s : State) : (s.cacheWrite k v).dst = s.dst := rfl
@[simp] theorem cacheWrite_inbox (k : Slot) (v : Word) (s : State) : (s.cacheWrite k v).inbox = s.inbox := rfl
@[simp] theorem cacheWrite_readData (k : Slot) (v : Word) (s : State) : (s.cacheWrite k v).readData = s.readData := rfl
@[simp] theorem cacheWrite_draws (k : Slot) (v : Word) (s : State) : (s.cacheWrite k v).draws = s.draws := rfl

@[simp] theorem takeChunk_fsm (len : Nat) (p : Word) (s : State) : (takeChunk len p s).fsm = s.fsm := rfl
@[simp] theorem takeChunk_errCode (len : Nat) (p : Word) (s : State) : (takeChunk len p s).errCode = s.errCode := rfl
@[simp] theorem takeChunk_width (len : Nat) (p : Word) (s : State) : (takeChunk len p s).width = s.width := rfl
@[simp] theorem takeChunk_height (len : Nat) (p : Word) (s : State) : (takeChunk len p s).height = s.height := rfl
@[simp] theorem takeChunk_channels (len : Nat) (p : Word) (s : State) : (takeChunk len p s).channels = s.channels := rfl
@[simp] theorem takeChunk_colorspace (len : Nat) (p : Word) (s : State) : (takeChunk len p s).colorspace = s.colorspace := rfl
@[simp] theorem takeChunk_desiredChannels (len : Nat) (p : Word) (s : State) : (takeChunk len p s).desiredChannels = s.desiredChannels := rfl
@[simp] theorem takeChunk_srcLen (len : Nat) (p : Word) (s : State) : (takeChunk len p s).srcLen = s.srcLen := rfl
@[simp] theorem takeChunk_px (len : Nat) (p : Word) (s : State) : (takeChunk len p s).px = p := rfl
@[simp] theorem takeChunk_pxPrev (len : Nat) (p : Word) (s : State) : (takeChunk len p s).pxPrev = s.pxPrev := rfl
@[simp] theorem takeChunk_run (len : Nat) (p : Word) (s : State) : (takeChunk len p s).run = s.run := rfl
@[simp] theorem takeChunk_i (len : Nat) (p : Word) (s : State) : (takeChunk len p s).i = s.i := rfl
@[simp] theorem takeChunk_rp (len : Nat) (p : Word) (s : State) : (takeChunk len p s).rp = s.rp + BitVec.ofNat 32 len := rfl
@[simp] theorem takeChunk_wp (len : Nat) (p : Word) (s : State) : (takeChunk len p s).wp = s.wp := rfl
@[simp] theorem takeChunk_n (len : Nat) (p : Word) (s : State) : (takeChunk len p s).n = s.n := rfl
@[simp] theorem takeChunk_ch (len : Nat) (p : Word) (s : State) : (takeChunk len p s).ch = s.ch := rfl
@[simp] theorem takeChunk_oc (len : Nat) (p : Word) (s : State) : (takeChunk len p s).oc = s.oc := rfl
@[simp] theorem takeChunk_cend (len : Nat) (p : Word) (s : State) : (takeChunk len p s).cend = s.cend := rfl
@[simp] theorem takeChunk_cache (len : Nat) (p : Word) (s : State) : (takeChunk len p s).cache = s.cache := rfl
@[simp] theorem takeChunk_src (len : Nat) (p : Word) (s : State) : (takeChunk len p s).src = s.src := rfl
@[simp] theorem takeChunk_dst (len : Nat) (p : Word) (s : State) : (takeChunk len p s).dst = s.dst := rfl
@[simp] theorem takeChunk_inbox (len : Nat) (p : Word) (s : State) : (takeChunk len p s).inbox = s.inbox := rfl
@[simp] theorem takeChunk_readData (len : Nat) (p : Word) (s : State) : (takeChunk len p s).readData = s.readData := rfl
@[simp] theorem takeChunk_draws (len : Nat) (p : Word) (s : State) : (takeChunk len p s).draws = s.draws := rfl

@[simp] theorem storePixel_fsm (s : State) : (storePixel s).fsm = s.fsm := rfl
@[simp] theorem storePixel_errCode (s : State) : (storePixel s).errCode = s.errCode := rfl
@[simp] theorem storePixel_width (s : State) : (storePixel s).width = s.width := rfl
@[simp] theorem storePixel_height (s : State) : (storePixel s).height = s.height := rfl
@[simp] theorem storePixel_channels (s : State) : (storePixel s).channels = s.channels := rfl
@[simp] theorem storePixel_colorspace (s : State) : (storePixel s).colorspace = s.colorspace := rfl
@[simp] theorem storePixel_desiredChannels (s : State) : (storePixel s).desiredChannels = s.desiredChannels := rfl
@[simp] theorem storePixel_srcLen (s : State) : (storePixel s).srcLen = s.srcLen := rfl
@[simp] theorem storePixel_px (s : State) : (storePixel s).px = s.px := rfl
@[simp] theorem storePixel_pxPrev (s : State) : (storePixel s).pxPrev = s.pxPrev := rfl
@[simp] theorem storePixel_run (s : State) : (storePixel s).run = s.run := rfl
@[simp] theorem storePixel_i (s : State) : (storePixel s).i = s.i := rfl
@[simp] theorem storePixel_rp (s : State) : (storePixel s).rp = s.rp := rfl
@[simp] theorem storePixel_wp (s : State) : (storePixel s).wp = s.wp := rfl
@[simp] theorem storePixel_n (s : State) : (storePixel s).n = s.n := rfl
@[simp] theorem storePixel_ch (s : State) : (storePixel s).ch = s.ch := rfl
@[simp] theorem storePixel_oc (s : State) : (storePixel s).oc = s.oc := rfl
@[simp] theorem storePixel_cend (s : State) : (storePixel s).cend = s.cend := rfl
@[simp] theorem storePixel_cache (s : State) : (storePixel s).cache = s.cache.set (pixelHash s.px).toNat s.px (pixelHash s.px).isLt := rfl
@[simp] theorem storePixel_src (s : State) : (storePixel s).src = s.src := rfl
@[simp] theorem storePixel_dst (s : State) : (storePixel s).dst = s.dst := rfl
@[simp] theorem storePixel_inbox (s : State) : (storePixel s).inbox = s.inbox := rfl
@[simp] theorem storePixel_readData (s : State) : (storePixel s).readData = s.readData := rfl
@[simp] theorem storePixel_draws (s : State) : (storePixel s).draws = s.draws := rfl

@[simp] theorem advancePixel_fsm (s : State) : (advancePixel s).fsm = if s.i + 1 = s.n then .done else s.fsm := rfl
@[simp] theorem advancePixel_errCode (s : State) : (advancePixel s).errCode = s.errCode := rfl
@[simp] theorem advancePixel_width (s : State) : (advancePixel s).width = s.width := rfl
@[simp] theorem advancePixel_height (s : State) : (advancePixel s).height = s.height := rfl
@[simp] theorem advancePixel_channels (s : State) : (advancePixel s).channels = s.channels := rfl
@[simp] theorem advancePixel_colorspace (s : State) : (advancePixel s).colorspace = s.colorspace := rfl
@[simp] theorem advancePixel_desiredChannels (s : State) : (advancePixel s).desiredChannels = s.desiredChannels := rfl
@[simp] theorem advancePixel_srcLen (s : State) : (advancePixel s).srcLen = s.srcLen := rfl
@[simp] theorem advancePixel_px (s : State) : (advancePixel s).px = s.px := rfl
@[simp] theorem advancePixel_pxPrev (s : State) : (advancePixel s).pxPrev = s.pxPrev := rfl
@[simp] theorem advancePixel_run (s : State) : (advancePixel s).run = s.run := rfl
@[simp] theorem advancePixel_i (s : State) : (advancePixel s).i = s.i + 1 := rfl
@[simp] theorem advancePixel_rp (s : State) : (advancePixel s).rp = s.rp := rfl
@[simp] theorem advancePixel_wp (s : State) : (advancePixel s).wp = s.wp := rfl
@[simp] theorem advancePixel_n (s : State) : (advancePixel s).n = s.n := rfl
@[simp] theorem advancePixel_ch (s : State) : (advancePixel s).ch = s.ch := rfl
@[simp] theorem advancePixel_oc (s : State) : (advancePixel s).oc = s.oc := rfl
@[simp] theorem advancePixel_cend (s : State) : (advancePixel s).cend = s.cend := rfl
@[simp] theorem advancePixel_cache (s : State) : (advancePixel s).cache = s.cache := rfl
@[simp] theorem advancePixel_src (s : State) : (advancePixel s).src = s.src := rfl
@[simp] theorem advancePixel_dst (s : State) : (advancePixel s).dst = s.dst := rfl
@[simp] theorem advancePixel_inbox (s : State) : (advancePixel s).inbox = s.inbox := rfl
@[simp] theorem advancePixel_readData (s : State) : (advancePixel s).readData = s.readData := rfl
@[simp] theorem advancePixel_draws (s : State) : (advancePixel s).draws = s.draws := rfl

@[simp] theorem takeUnit_fsm (s : State) : (takeUnit s).fsm = s.fsm := rfl
@[simp] theorem takeUnit_errCode (s : State) : (takeUnit s).errCode = s.errCode := rfl
@[simp] theorem takeUnit_width (s : State) : (takeUnit s).width = s.width := rfl
@[simp] theorem takeUnit_height (s : State) : (takeUnit s).height = s.height := rfl
@[simp] theorem takeUnit_channels (s : State) : (takeUnit s).channels = s.channels := rfl
@[simp] theorem takeUnit_colorspace (s : State) : (takeUnit s).colorspace = s.colorspace := rfl
@[simp] theorem takeUnit_desiredChannels (s : State) : (takeUnit s).desiredChannels = s.desiredChannels := rfl
@[simp] theorem takeUnit_srcLen (s : State) : (takeUnit s).srcLen = s.srcLen := rfl
@[simp] theorem takeUnit_px (s : State) : (takeUnit s).px = assemble s.src s.rp.toNat s.ch := rfl
@[simp] theorem takeUnit_pxPrev (s : State) : (takeUnit s).pxPrev = s.pxPrev := rfl
@[simp] theorem takeUnit_run (s : State) : (takeUnit s).run = s.run := rfl
@[simp] theorem takeUnit_i (s : State) : (takeUnit s).i = s.i := rfl
@[simp] theorem takeUnit_rp (s : State) : (takeUnit s).rp = s.rp + s.ch.setWidth 32 := rfl
@[simp] theorem takeUnit_wp (s : State) : (takeUnit s).wp = s.wp := rfl
@[simp] theorem takeUnit_n (s : State) : (takeUnit s).n = s.n := rfl
@[simp] theorem takeUnit_ch (s : State) : (takeUnit s).ch = s.ch := rfl
@[simp] theorem takeUnit_oc (s : State) : (takeUnit s).oc = s.oc := rfl
@[simp] theorem takeUnit_cend (s : State) : (takeUnit s).cend = s.cend := rfl
@[simp] theorem takeUnit_cache (s : State) : (takeUnit s).cache = s.cache := rfl
@[simp] theorem takeUnit_src (s : State) : (takeUnit s).src = s.src := rfl
@[simp] theorem takeUnit_dst (s : State) : (takeUnit s).dst = s.dst := rfl
@[simp] theorem takeUnit_inbox (s : State) : (takeUnit s).inbox = s.inbox := rfl
@[simp] theorem takeUnit_readData (s : State) : (takeUnit s).readData = s.readData := rfl
@[simp] theorem takeUnit_draws (s : State) : (takeUnit s).draws = s.draws := rfl

@[simp] theorem encodeAdvance_fsm (s : State) : (encodeAdvance s).fsm = if s.i + 1 = s.n then .eEnd else s.fsm := rfl
@[simp] theorem encodeAdvance_errCode (s : State) : (encodeAdvance s).errCode = s.errCode := rfl
@[simp] theorem encodeAdvance_width (s : State) : (encodeAdvance s).width = s.width := rfl
@[simp] theorem encodeAdvance_height (s : State) : (encodeAdvance s).height = s.height := rfl
@[simp] theorem encodeAdvance_channels (s : State) : (encodeAdvance s).channels = s.channels := rfl
@[simp] theorem encodeAdvance_colorspace (s : State) : (encodeAdvance s).colorspace = s.colorspace := rfl
@[simp] theorem encodeAdvance_desiredChannels (s : State) : (encodeAdvance s).desiredChannels = s.desiredChannels := rfl
@[simp] theorem encodeAdvance_srcLen (s : State) : (encodeAdvance s).srcLen = s.srcLen := rfl
@[simp] theorem encodeAdvance_px (s : State) : (encodeAdvance s).px = s.px := rfl
@[simp] theorem encodeAdvance_pxPrev (s : State) : (encodeAdvance s).pxPrev = s.px := rfl
@[simp] theorem encodeAdvance_run (s : State) : (encodeAdvance s).run = s.run := rfl
@[simp] theorem encodeAdvance_i (s : State) : (encodeAdvance s).i = s.i + 1 := rfl
@[simp] theorem encodeAdvance_rp (s : State) : (encodeAdvance s).rp = s.rp := rfl
@[simp] theorem encodeAdvance_wp (s : State) : (encodeAdvance s).wp = s.wp := rfl
@[simp] theorem encodeAdvance_n (s : State) : (encodeAdvance s).n = s.n := rfl
@[simp] theorem encodeAdvance_ch (s : State) : (encodeAdvance s).ch = s.ch := rfl
@[simp] theorem encodeAdvance_oc (s : State) : (encodeAdvance s).oc = s.oc := rfl
@[simp] theorem encodeAdvance_cend (s : State) : (encodeAdvance s).cend = s.cend := rfl
@[simp] theorem encodeAdvance_cache (s : State) : (encodeAdvance s).cache = s.cache := rfl
@[simp] theorem encodeAdvance_src (s : State) : (encodeAdvance s).src = s.src := rfl
@[simp] theorem encodeAdvance_dst (s : State) : (encodeAdvance s).dst = s.dst := rfl
@[simp] theorem encodeAdvance_inbox (s : State) : (encodeAdvance s).inbox = s.inbox := rfl
@[simp] theorem encodeAdvance_readData (s : State) : (encodeAdvance s).readData = s.readData := rfl
@[simp] theorem encodeAdvance_draws (s : State) : (encodeAdvance s).draws = s.draws := rfl

@[simp] theorem raiseError_fsm (c : ErrorCode) (s : State) : (raiseError c s).fsm = .error := rfl
@[simp] theorem raiseError_errCode (c : ErrorCode) (s : State) : (raiseError c s).errCode = c := rfl
@[simp] theorem raiseError_width (c : ErrorCode) (s : State) : (raiseError c s).width = s.width := rfl
@[simp] theorem raiseError_height (c : ErrorCode) (s : State) : (raiseError c s).height = s.height := rfl
@[simp] theorem raiseError_channels (c : ErrorCode) (s : State) : (raiseError c s).channels = s.channels := rfl
@[simp] theorem raiseError_colorspace (c : ErrorCode) (s : State) : (raiseError c s).colorspace = s.colorspace := rfl
@[simp] theorem raiseError_desiredChannels (c : ErrorCode) (s : State) : (raiseError c s).desiredChannels = s.desiredChannels := rfl
@[simp] theorem raiseError_srcLen (c : ErrorCode) (s : State) : (raiseError c s).srcLen = s.srcLen := rfl
@[simp] theorem raiseError_px (c : ErrorCode) (s : State) : (raiseError c s).px = s.px := rfl
@[simp] theorem raiseError_pxPrev (c : ErrorCode) (s : State) : (raiseError c s).pxPrev = s.pxPrev := rfl
@[simp] theorem raiseError_run (c : ErrorCode) (s : State) : (raiseError c s).run = s.run := rfl
@[simp] theorem raiseError_i (c : ErrorCode) (s : State) : (raiseError c s).i = s.i := rfl
@[simp] theorem raiseError_rp (c : ErrorCode) (s : State) : (raiseError c s).rp = s.rp := rfl
@[simp] theorem raiseError_wp (c : ErrorCode) (s : State) : (raiseError c s).wp = 0 := rfl
@[simp] theorem raiseError_n (c : ErrorCode) (s : State) : (raiseError c s).n = s.n := rfl
@[simp] theorem raiseError_ch (c : ErrorCode) (s : State) : (raiseError c s).ch = s.ch := rfl
@[simp] theorem raiseError_oc (c : ErrorCode) (s : State) : (raiseError c s).oc = s.oc := rfl
@[simp] theorem raiseError_cend (c : ErrorCode) (s : State) : (raiseError c s).cend = s.cend := rfl
@[simp] theorem raiseError_cache (c : ErrorCode) (s : State) : (raiseError c s).cache = s.cache := rfl
@[simp] theorem raiseError_src (c : ErrorCode) (s : State) : (raiseError c s).src = s.src := rfl
@[simp] theorem raiseError_dst (c : ErrorCode) (s : State) : (raiseError c s).dst = s.dst := rfl
@[simp] theorem raiseError_inbox (c : ErrorCode) (s : State) : (raiseError c s).inbox = s.inbox := rfl
@[simp] theorem raiseError_readData (c : ErrorCode) (s : State) : (raiseError c s).readData = s.readData := rfl
@[simp] theorem raiseError_draws (c : ErrorCode) (s : State) : (raiseError c s).draws = s.draws := rfl

@[simp] theorem beginOperation_fsm (r : Word) (s : State) : (beginOperation r s).fsm = s.fsm := rfl
@[simp] theorem beginOperation_errCode (r : Word) (s : State) : (beginOperation r s).errCode = .none := rfl
@[simp] theorem beginOperation_width (r : Word) (s : State) : (beginOperation r s).width = s.width := rfl
@[simp] theorem beginOperation_height (r : Word) (s : State) : (beginOperation r s).height = s.height := rfl
@[simp] theorem beginOperation_channels (r : Word) (s : State) : (beginOperation r s).channels = s.channels := rfl
@[simp] theorem beginOperation_colorspace (r : Word) (s : State) : (beginOperation r s).colorspace = s.colorspace := rfl
@[simp] theorem beginOperation_desiredChannels (r : Word) (s : State) : (beginOperation r s).desiredChannels = s.desiredChannels := rfl
@[simp] theorem beginOperation_srcLen (r : Word) (s : State) : (beginOperation r s).srcLen = s.srcLen := rfl
@[simp] theorem beginOperation_px (r : Word) (s : State) : (beginOperation r s).px = Config.pxInit := rfl
@[simp] theorem beginOperation_pxPrev (r : Word) (s : State) : (beginOperation r s).pxPrev = Config.pxInit := rfl
@[simp] theorem beginOperation_run (r : Word) (s : State) : (beginOperation r s).run = 0 := rfl
@[simp] theorem beginOperation_i (r : Word) (s : State) : (beginOperation r s).i = 0 := rfl
@[simp] theorem beginOperation_rp (r : Word) (s : State) : (beginOperation r s).rp = r := rfl
@[simp] theorem beginOperation_wp (r : Word) (s : State) : (beginOperation r s).wp = 0 := rfl
@[simp] theorem beginOperation_n (r : Word) (s : State) : (beginOperation r s).n = s.n := rfl
@[simp] theorem beginOperation_ch (r : Word) (s : State) : (beginOperation r s).ch = s.ch := rfl
@[simp] theorem beginOperation_oc (r : Word) (s : State) : (beginOperation r s).oc = s.oc := rfl
@[simp] theorem beginOperation_cend (r : Word) (s : State) : (beginOperation r s).cend = s.cend := rfl
@[simp] theorem beginOperation_cache (r : Word) (s : State) : (beginOperation r s).cache = Vector.replicate 64 Config.cacheInit := rfl
@[simp] theorem beginOperation_src (r : Word) (s : State) : (beginOperation r s).src = s.src := rfl
@[simp] theorem beginOperation_dst (r : Word) (s : State) : (beginOperation r s).dst = s.dst := rfl
@[simp] theorem beginOperation_inbox (r : Word) (s : State) : (beginOperation r s).inbox = s.inbox := rfl
@[simp] theorem beginOperation_readData (r : Word) (s : State) : (beginOperation r s).readData = s.readData := rfl
@[simp] theorem beginOperation_draws (r : Word) (s : State) : (beginOperation r s).draws = s.draws := rfl

@[simp] theorem latchOperation_fsm (w h : Word) (c o : Byte) (s : State) : (latchOperation w h c o s).fsm = s.fsm := rfl
@[simp] theorem latchOperation_errCode (w h : Word) (c o : Byte) (s : State) : (latchOperation w h c o s).errCode = s.errCode := rfl
@[simp] theorem latchOperation_width (w h : Word) (c o : Byte) (s : State) : (latchOperation w h c o s).width = s.width := rfl
@[simp] theorem latchOperation_height (w h : Word) (c o : Byte) (s : State) : (latchOperation w h c o s).height = s.height := rfl
@[simp] theorem latchOperation_channels (w h : Word) (c o : Byte) (s : State) : (latchOperation w h c o s).channels = s.channels := rfl
@[simp] theorem latchOperation_colorspace (w h : Word) (c o : Byte) (s : State) : (latchOperation w h c o s).colorspace = s.colorspace := rfl
@[simp] theorem latchOperation_desiredChannels (w h : Word) (c o : Byte) (s : State) : (latchOperation w h c o s).desiredChannels = s.desiredChannels := rfl
@[simp] theorem latchOperation_srcLen (w h : Word) (c o : Byte) (s : State) : (latchOperation w h c o s).srcLen = s.srcLen := rfl
@[simp] theorem latchOperation_px (w h : Word) (c o : Byte) (s : State) : (latchOperation w h c o s).px = s.px := rfl
@[simp] theorem latchOperation_pxPrev (w h : Word) (c o : Byte) (s : State) : (latchOperation w h c o s).pxPrev = s.pxPrev := rfl
@[simp] theorem latchOperation_run (w h : Word) (c o : Byte) (s : State) : (latchOperation w h c o s).run = s.run := rfl
@[simp] theorem latchOperation_i (w h : Word) (c o : Byte) (s : State) : (latchOperation w h c o s).i = s.i := rfl
@[simp] theorem latchOperation_rp (w h : Word) (c o : Byte) (s : State) : (latchOperation w h c o s).rp = s.rp := rfl
@[simp] theorem latchOperation_wp (w h : Word) (c o : Byte) (s : State) : (latchOperation w h c o s).wp = s.wp := rfl
@[simp] theorem latchOperation_n (w h : Word) (c o : Byte) (s : State) : (latchOperation w h c o s).n = BitVec.ofNat 32 (w.toNat * h.toNat) := rfl
@[simp] theorem latchOperation_ch (w h : Word) (c o : Byte) (s : State) : (latchOperation w h c o s).ch = c := rfl
@[simp] theorem latchOperation_oc (w h : Word) (c o : Byte) (s : State) : (latchOperation w h c o s).oc = o := rfl
@[simp] theorem latchOperation_cend (w h : Word) (c o : Byte) (s : State) : (latchOperation w h c o s).cend = endOfChunks s.srcLen := rfl
@[simp] theorem latchOperation_cache (w h : Word) (c o : Byte) (s : State) : (latchOperation w h c o s).cache = s.cache := rfl
@[simp] theorem latchOperation_src (w h : Word) (c o : Byte) (s : State) : (latchOperation w h c o s).src = s.src := rfl
@[simp] theorem latchOperation_dst (w h : Word) (c o : Byte) (s : State) : (latchOperation w h c o s).dst = s.dst := rfl
@[simp] theorem latchOperation_inbox (w h : Word) (c o : Byte) (s : State) : (latchOperation w h c o s).inbox = s.inbox := rfl
@[simp] theorem latchOperation_readData (w h : Word) (c o : Byte) (s : State) : (latchOperation w h c o s).readData = s.readData := rfl
@[simp] theorem latchOperation_draws (w h : Word) (c o : Byte) (s : State) : (latchOperation w h c o s).draws = s.draws := rfl

end Sys2Proof.Machine
end

