-- ==== Sys2Proof/Tests/Slice0.lean ====
section
/-! SUPPORT. Tests: expected results from spec/ (95_test_vectors.md, the rules' own examples), and for each statement with
hypotheses a concrete case that meets them. -/

namespace Sys2Proof.Tests

open Sys2Proof.Machine Sys2Proof.Safety

/-! ### WellFormed refuses each ill-formed operand (R67) -/

theorem test_wf_diff : (Instr.diff (-3) 0 0).wf = false ∧ (Instr.diff 2 0 0).wf = false ∧ (Instr.diff 0 (-3) 0).wf = false ∧
    (Instr.diff 0 2 0).wf = false ∧ (Instr.diff 0 0 (-3)).wf = false ∧ (Instr.diff 0 0 2).wf = false := by decide

theorem test_wf_luma : (Instr.luma (-33) 0 0).wf = false ∧ (Instr.luma 32 0 0).wf = false ∧ (Instr.luma 0 (-9) 0).wf = false ∧
    (Instr.luma 0 8 0).wf = false ∧ (Instr.luma 0 0 (-9)).wf = false ∧ (Instr.luma 0 0 8).wf = false := by decide

theorem test_wf_run : (Instr.run 0).wf = false ∧ (Instr.run 63).wf = false := by decide

theorem test_wf_bounds : (Instr.diff (-2) 1 (-2)).wf = true ∧ (Instr.luma (-32) (-8) 7).wf = true ∧
    (Instr.luma 31 7 (-8)).wf = true ∧ (Instr.run 1).wf = true ∧ (Instr.run 62).wf = true ∧
    (Instr.rgb 0 0 0).wf = true ∧ (Instr.rgba 0 0 0 0).wf = true ∧ (Instr.index 63).wf = true := by decide

/-! ### Decoding: words written bit by bit from the spec's encodings (R58 to R63) -/

/-- `00kkkkkk` with k = 50. -/
theorem test_decode_index : decode [0b00110010#8] = .ok (.index 50#6, []) := by decide

/-- `01rrggbb`: fields 3, 1, 2, so 1, -1, 0 (41_encoder.md R87 example 0x76). -/
theorem test_decode_diff : decode [0b01110110#8] = .ok (.diff 1 (-1) 0, []) := by decide

/-- `10gggggg rrrrbbbb`: 40 - 32, 6 - 8, 11 - 8 (program P1: `A8 6B` is LUMA 8,-2,3). -/
theorem test_decode_luma : decode [0b10101000#8, 0b01101011#8, 0x07#8] = .ok (.luma 8 (-2) 3, [0x07#8]) := by decide

/-- `11nnnnnn` with field 14 (41_encoder.md R84: 15 repeats give 0xCE). -/
theorem test_decode_run : decode [0b11001110#8] = .ok (.run 15, []) := by decide

theorem test_decode_rgb : decode [0b11111110#8, 0x64#8, 0x32#8, 0xC8#8] = .ok (.rgb 100 50 200, []) := by decide

theorem test_decode_rgba : decode [0b11111111#8, 0x64#8, 0x32#8, 0xC8#8, 0x80#8] = .ok (.rgba 100 50 200 128, []) := by
  decide

/-- Missing payload, and no byte at all. -/
theorem test_decode_truncated : decode [0xFE#8, 1, 2] = .error .truncated ∧ decode [0xFF#8, 1, 2, 3] = .error .truncated ∧
    decode [0x80#8] = .error .truncated ∧ decode [] = .error .empty := by decide

/-- V-CLS-1 to V-CLS-11: every range's ends. -/
theorem test_class_bounds :
    [0x00#8, 0x3F#8, 0x40#8, 0x7F#8, 0x80#8, 0xBF#8, 0xC0#8, 0xFD#8, 0xFE#8, 0xFF#8].map (fun b => (classOf b).length) =
      [1, 1, 1, 1, 2, 2, 1, 1, 4, 5] := by decide

/-- 41_encoder.md R84, R85, R87 to R90: the bytes of the examples and of the corner cases. -/
theorem test_encode : encode (.run 62) = [0xFD#8] ∧ encode (.index 50) = [0x32#8] ∧ encode (.diff (-2) (-2) (-2)) = [0x40#8] ∧
    encode (.luma 0 2 0) = [0xA0#8, 0xA8#8] ∧ encode (.luma (-32) (-8) (-8)) = [0x80#8, 0x00#8] ∧
    encode (.rgb 128 128 128) = [0xFE#8, 0x80#8, 0x80#8, 0x80#8] := by decide

/-- A table word: its first byte in bits 7..0, operand bytes of zeros above. -/
theorem test_table_word : decodeTableWord 32 0xC83264FE = some (.rgb 100 50 200) ∧ decodeTableWord 8 0xFF = some (.rgba 0 0 0 0) ∧
    decodeTableWord 16 0x6BA8 = some (.luma 8 (-2) 3) := by decide

/-! ### Pixels (V-PIX, V-DLT) -/

theorem test_hash : [0x00000000#32, 0x000000FF#32, 0xFF0000FF#32, 0x808080FF#32, 0x0A141E28#32, 0xFFFFFFFF#32].map
    (fun p => (pixelHash p).toNat) = [0, 53, 50, 53, 12, 38] := by decide

theorem test_delta : delta 1 0 = 1 ∧ delta 0 255 = 1 ∧ delta 255 0 = -1 ∧ delta 128 0 = -128 ∧ delta 0 128 = -128 := by decide

theorem test_pixel_bytes : pixelBytes 0x11223344#32 3 = [0x11, 0x22, 0x33] ∧
    pixelBytes 0x11223344#32 4 = [0x11, 0x22, 0x33, 0x44] := by decide

theorem test_assemble : assemble [(0, 10), (1, 20), (2, 30), (3, 40)] 0 3 = 0x0A141EFF#32 ∧
    assemble [(0, 10), (1, 20), (2, 30), (3, 40)] 0 4 = 0x0A141E28#32 := by decide

/-! ### Small states -/

/-- A decode of a 2×2, 4-channel stream about to read `bs` as its chunk region. -/
def decoding (bs : List Byte) : State :=
  { State.reset with
    fsm := .dPix, width := 2, height := 2, channels := 4, px := 0x000000FF, pxPrev := 0x000000FF, n := 4, oc := 4,
    rp := 14, cend := BitVec.ofNat 32 (14 + bs.length), srcLen := BitVec.ofNat 32 (22 + bs.length),
    src := Memory.setBytes [] 14 bs }

/-- An encode of a 2×1, 4-channel image about to read its first pixel from `bs`. -/
def encoding (bs : List Byte) : State :=
  { State.reset with
    fsm := .ePix, width := 2, height := 1, channels := 4, ch := 4, px := 0x000000FF, pxPrev := 0x000000FF, n := 2,
    srcLen := 8, wp := 14, src := Memory.setBytes [] 0 bs }

/-- An accepted encode of a 1×1, 3-channel image. -/
def header : State :=
  { State.reset with
    fsm := .eHdr, width := 1, height := 1, channels := 3, ch := 3, px := 0x000000FF, pxPrev := 0x000000FF, n := 1,
    srcLen := 3, src := [(0, 1), (1, 1), (2, 1)] }

/-- That encode before its end step: one byte, 0x7F, follows the header. -/
def ending : State :=
  { header with fsm := .eEnd, px := 0x010101FF, pxPrev := 0x010101FF, i := 1, rp := 3, wp := 15 }

/-- Idle, with one host action to come. -/
def host (e : HostEvent) : State := { State.reset with inbox := [e] }

/-- What a field of the next state is, if there is a next state. -/
def look {α : Type} (o : Result) (f : State → α) : Option α :=
  match o with
  | .next s => some (f s)
  | .fault _ => none
  | .refused _ => none

/-- DST's first bytes. -/
def out (k : Nat) (s : State) : List Byte := (List.range k).map s.dst.get

/-! ### One step of each chunk -/

/-- R98 example. -/
theorem test_step_rgb : look (step (decoding [0xFE, 0x80, 0x80, 0x80])) (fun t => (t.px, t.rp, t.cacheRead 53, out 5 t)) =
    some (0x808080FF, 18, 0x808080FF, [0x80, 0x80, 0x80, 0xFF, 0]) := by decide

/-- R99 example; `i` and `wp` move on. -/
theorem test_step_rgba : look (step (decoding [0xFF, 0x0A, 0x14, 0x1E, 0x28])) (fun t => (t.px, t.rp, t.cacheRead 12, t.i, t.wp)) =
    some (0x0A141E28, 19, 0x0A141E28, 1, 4) := by decide

/-- V-DEC-7: INDEX of an empty slot is (0,0,0,0), and writes no slot. -/
theorem test_step_index : look (step (decoding [0x35])) (fun t => (t.px, t.rp, t.cacheRead 53, t.cacheRead 0)) =
    some (0, 15, 0, 0) := by decide

/-- V-DEC-4: 0 - 2 wraps to 254, with no borrow into another lane. -/
theorem test_step_diff : look (step (decoding [0x40])) (fun t => (t.px, t.rp, t.run)) = some (0xFEFEFEFF, 15, 0) := by decide

/-- V-DEC-8: the largest LUMA change. -/
theorem test_step_luma : look (step (decoding [0xBF, 0xFF])) (fun t => (t.px, t.rp)) = some (0x261F26FF, 16) := by decide

/-- V-DEC-6: the RUN chunk itself writes slot 53. -/
theorem test_step_run : look (step (decoding [0xCE])) (fun t => (t.px, t.run, t.cacheRead 53)) =
    some (0x000000FF, 14, 0x000000FF) := by decide

/-- R96: no byte read, no cache write. -/
theorem test_step_continuation : look (step { decoding [0x40] with run := 2 }) (fun t => (t.px, t.run, t.rp, t.cacheRead 53)) =
    some (0x000000FF, 1, 14, 0) := by decide

/-- R97, V-DEC-12: an empty chunk region repeats the pixel. -/
theorem test_step_exhausted : look (step (decoding [])) (fun t => (t.px, t.rp, t.cacheRead 53, out 4 t)) =
    some (0x000000FF, 14, 0, [0, 0, 0, 0xFF]) := by decide

/-- V-DEC-21: DONE at the last pixel. -/
theorem test_step_last : look (step { decoding [0x7F] with i := 3, wp := 12 }) (fun t => (t.fsm, t.wp)) = some (.done, 16) := by
  decide

/-- A chunk outside SRC's address space faults (log entry 11). -/
theorem test_step_src_fault : step { decoding [] with rp := 0xFFFFFFFE, cend := 0xFFFFFFFF, src := [(0xFFFFFFFE, 0xFE)] } =
    .fault .srcAddress := by rfl

/-! ### The encoder -/

/-- R82 example. -/
theorem test_header : look (step { header with width := 2, height := 2 }) (fun t => (t.fsm, t.wp, out 15 t)) =
    some (.ePix, 14, [0x71, 0x6F, 0x69, 0x66, 0, 0, 0, 2, 0, 0, 0, 2, 3, 0, 0]) := by decide

/-- R83 example: (255,0,0,255) after the initial pixel is the DIFF 0x5A, stored in slot 50. -/
theorem test_encode_diff : look (step (encoding [255, 0, 0, 255])) (fun t => (t.dst.get 14, t.wp, t.cacheRead 50, t.rp)) =
    some (0x5A, 15, 0xFF0000FF, 4) := by decide

/-- V-ENC-16: a RUN flush and an RGBA literal, six bytes in one step. -/
theorem test_encode_flush : look (step { encoding [5, 5, 5, 5] with run := 2 }) (fun t => (t.wp, (List.range 6).map (fun k => t.dst.get (14 + k)))) =
    some (20, [0xC1, 0xFF, 5, 5, 5, 5]) := by decide

/-- V-ENC-11: (0,0,0,0) hits the empty slot 0 although its alpha changed. -/
theorem test_encode_index : look (step (encoding [0, 0, 0, 0])) (fun t => (t.wp, t.dst.get 14, t.run)) = some (15, 0, 0) := by decide

/-- R84: at 62 the run is flushed as 0xFD. -/
theorem test_encode_run : look (step { encoding [0, 0, 0, 255] with run := 61 }) (fun t => (t.run, t.dst.get 14, t.cacheRead 53)) =
    some (0, 0xFD, 0) := by decide

/-- V-ENC-18, V-ENC-20 to V-ENC-22: the ends of LUMA. -/
theorem test_miss_chunk : missChunk 0xD8E0D8FF 0x000000FF = .luma (-32) (-8) (-8) ∧ missChunk 0xFEFFFEFF 0xD8E0D8FF = .luma 31 7 7 ∧
    missChunk 0x202020FF 0x000000FF = .rgb 32 32 32 ∧ missChunk 0x080000FF 0x000000FF = .rgb 8 0 0 ∧
    missChunk 0x01010100 0x000000FF = .rgba 1 1 1 0 := by decide

/-- V-ENC-31: DST_LEN 23 at DONE. -/
theorem test_end : look (step ending) (fun t => (t.fsm, t.wp, (List.range 8).map (fun k => t.dst.get (15 + k)))) =
    some (.done, 23, [0, 0, 0, 0, 0, 0, 0, 1]) := by decide

/-! ### Starts and the host (V-ERR, V-REG, V-HDR) -/

/-- V-ERR-2, V-ERR-3, V-ERR-5, V-ERR-8: the order of an encode start's checks. -/
theorem test_encode_start :
    (encodeStart { State.reset with height := 2, channels := 3 }).errCode = .nullInput ∧
    (encodeStart { State.reset with height := 2, channels := 3, srcLen := 12 }).errCode = .invalidHeader ∧
    (encodeStart { State.reset with width := 2, height := 2, channels := 3, srcLen := 11 }).errCode = .lengthMismatch ∧
    (encodeStart { State.reset with width := 2, height := 2, channels := 3, srcLen := 12 }).fsm = .eHdr := by decide

/-- R32: the latches of an accepted start, encode (all but OC, which is free) and decode. -/
theorem test_latches :
    (let t := encodeStart { State.reset with width := 2, height := 2, channels := 3, srcLen := 12, desiredChannels := 4 }
     (t.n, t.ch, t.cend) = (4, 3, 4)) ∧
    (let t := decodeStart { State.reset with srcLen := 22, desiredChannels := 3, src := Memory.setBytes [] 0 (headerOf 2 2 4 0) }
     (t.n, t.ch, t.oc, t.cend) = (4, 4, 3, 14)) := by decide

/-- V-HDR-8, V-HDR-9, V-HDR-11: the exact product decides. -/
theorem test_pixel_limit : headerFieldsValid 3 133333333 3 0 = true ∧ headerFieldsValid 3 133333334 3 0 = false ∧
    headerFieldsValid 65536 65536 3 0 = false ∧ headerFieldsValid 20000 20000 3 0 = false := by decide

/-- V-ERR-11 to V-ERR-14, V-ERR-17: the order of a decode start's checks. -/
theorem test_decode_start :
    (decodeStart { State.reset with desiredChannels := 5 }).errCode = .badRequest ∧
    (decodeStart State.reset).errCode = .nullInput ∧
    (decodeStart { State.reset with srcLen := 21 }).errCode = .bufferTooShort ∧
    (decodeStart { State.reset with srcLen := 22 }).errCode = .invalidHeader ∧
    (decodeStart { State.reset with srcLen := 22, src := Memory.setBytes [] 0 (headerOf 2 2 3 0) }).cend = 14 := by decide

/-- V-REG-2, V-REG-7. -/
theorem test_reg_write : look (step (host (.regWrite 4 0 0x0000000B))) (fun t => (t.statusWord, t.errCode.code)) = some (4, 5) ∧
    look (step (host (.regWrite 4 0x14 0x00000104))) (fun t => regValue t 0x14) = some 4 := by decide

/-- V-REG-1: every register, and an unmapped offset, reads 0 after reset. -/
theorem test_reset_reads : (List.range 12).map (fun k => regValue State.reset (BitVec.ofNat 32 (4 * k))) =
    List.replicate 12 0 := by decide

/-- V-REG-5 (R22): a write while BUSY is ignored. -/
theorem test_busy_write : look (step { header with inbox := [.regWrite 4 0x0C 9] }) (fun t => (t.width, t.fsm)) = some (1, .eHdr) := by
  decide

/-- 93 S7, S4: the refused accesses. -/
theorem test_refused : step (host (.regRead 2 4)) = .refused .registerAccess ∧ step (host (.regWrite 4 2 0)) = .refused .registerAccess ∧
    step { header with inbox := [.srcWrite 0 7] } = .refused .srcWriteWhileBusy := ⟨rfl, rfl, rfl⟩

/-- V-REG-9: reset in the middle of an encode. -/
theorem test_reset_event : look (step { encoding [] with inbox := [.reset] }) (fun t => (t.fsm, t.wp, t.width, t.dst.get 40, t.dst.unknown)) =
    some (.idle, 0, 0, 0, [{ lo := 0, hi := 32, draw := 0 }]) := by decide

/-- A placed table word is the first instruction after reset (log entry 15). -/
theorem test_first_instruction : look (step (State.reset.withFetchWord 32 0xC83264FE)) (fun t => (t.px, t.fsm)) =
    some (0x6432C8FF, .done) := by decide

/-- Writing an unlisted address's value removes the entry; entries stay in order. -/
theorem test_memory_form : Memory.set (Memory.set (Memory.set [] 5 1) 3 2) 5 0 = [(3, 2)] := by decide

/-! ### Witnesses: a case that meets each statement's hypotheses -/

theorem witness_DecodeInvertsEncode : (Instr.luma 31 (-8) 7).wf = true := by decide

theorem witness_EncodeInvertsDecode : decode [0xFD#8, 0x01#8] = .ok (.run 62, [0x01#8]) := by decide

theorem witness_ChunkClassAndLengthByFirstByte : (0x3F#8).toNat ≤ 0x3F ∧ (0x40 ≤ (0x40#8).toNat ∧ (0x40#8).toNat ≤ 0x7F) ∧
    (0x80 ≤ (0xBF#8).toNat ∧ (0xBF#8).toNat ≤ 0xBF) ∧ (0xC0 ≤ (0xFD#8).toNat ∧ (0xFD#8).toNat ≤ 0xFD) ∧
    (0xFE#8).toNat = 0xFE ∧ (0xFF#8).toNat = 0xFF := by decide

theorem witness_DecodeRejectsOnlyMissingBytes : (classOf 0xFF#8).length ≤ [1#8, 2#8, 3#8, 4#8].length + 1 ∧
    ¬ (classOf 0xFF#8).length ≤ [1#8, 2#8, 3#8].length + 1 := by decide

theorem witness_StepRunsTheDecodedChunk : FetchReady (decoding [0xFE, 1, 2, 3]) ∧ (14#32).toNat + 4 ≤ Config.addressSpace ∧
    decode ((decoding [0xFE, 1, 2, 3]).src.getBytes 14 4) = .ok (.rgb 1 2 3, []) := by decide

theorem witness_StepRunsTheDecodedChunk_outside :
    let s := { decoding [] with rp := 0xFFFFFFFE, cend := 0xFFFFFFFF, src := [(0xFFFFFFFE, 0xFE)] }
    FetchReady s ∧ Config.addressSpace < s.rp.toNat + (classOf (s.src.get s.rp.toNat)).length := by decide

theorem witness_RgbChunk : let s := decoding [0xFE, 1, 2, 3]
    s.dst.wf = true ∧ EmitRoom s ∧ FetchReady s ∧ s.src.get s.rp.toNat = 0xFE#8 ∧ s.rp.toNat + 4 ≤ Config.addressSpace := by
  decide

theorem witness_RgbaChunk : let s := decoding [0xFF, 1, 2, 3, 4]
    s.dst.wf = true ∧ EmitRoom s ∧ FetchReady s ∧ s.src.get s.rp.toNat = 0xFF#8 ∧ s.rp.toNat + 5 ≤ Config.addressSpace := by
  decide

theorem witness_IndexChunk : let s := decoding [0x3F]
    s.dst.wf = true ∧ EmitRoom s ∧ FetchReady s ∧ (s.src.get s.rp.toNat).extractLsb' 6 2 = 0b00#2 := by decide

theorem witness_DiffChunk : let s := decoding [0x7F]
    s.dst.wf = true ∧ EmitRoom s ∧ FetchReady s ∧ (s.src.get s.rp.toNat).extractLsb' 6 2 = 0b01#2 := by decide

theorem witness_LumaChunk : let s := decoding [0xBF, 0xFF]
    s.dst.wf = true ∧ EmitRoom s ∧ FetchReady s ∧ (s.src.get s.rp.toNat).extractLsb' 6 2 = 0b10#2 ∧
      s.rp.toNat + 2 ≤ Config.addressSpace := by decide

theorem witness_RunChunk : let s := decoding [0xFD]
    (Instr.run 62).wf = true ∧ s.dst.wf = true ∧ EmitRoom s ∧ FetchReady s ∧
      (s.src.get s.rp.toNat).extractLsb' 6 2 = 0b11#2 ∧ s.src.get s.rp.toNat ≠ 0xFE#8 ∧ s.src.get s.rp.toNat ≠ 0xFF#8 := by
  decide

theorem witness_ChunkWithoutRoomFaults : ¬ EmitRoom { decoding [] with wp := 0xFFFFFFFD } := by decide

theorem witness_RunContinuation : let s := { decoding [0x40] with run := 61 }
    CoreTurn s ∧ s.fsm = .dPix ∧ s.run ≠ 0 ∧ s.dst.wf = true ∧ EmitRoom s := by decide

theorem witness_ExhaustedInputRepeatsThePixel : let s := decoding []
    CoreTurn s ∧ s.fsm = .dPix ∧ s.run = 0 ∧ s.cend.toNat ≤ s.rp.toNat ∧ s.dst.wf = true ∧ EmitRoom s := by decide

theorem witness_PlacedTableWordRuns : State.reset.src.wf = true ∧ decodeTableWord 40 0x04030201FF = some (.rgba 1 2 3 4) := by
  decide

theorem witness_EncodeHeaderStep : CoreTurn header ∧ header.fsm = .eHdr ∧ header.dst.wf = true := by decide

theorem witness_EncodeRepeatedPixelStep : let s := { encoding [0, 0, 0, 255] with run := 61 }
    CoreTurn s ∧ s.fsm = .ePix ∧ s.dst.wf = true ∧ s.run.toNat ≤ 61 ∧ s.rp.toNat + unitBytes s.ch ≤ Config.addressSpace ∧
      s.wp.toNat + 1 ≤ Config.addressSpace ∧ assemble s.src s.rp.toNat s.ch = s.pxPrev := by decide

theorem witness_EncodeRepeatedPixelStep_continued : let s := encoding [0, 0, 0, 255]
    CoreTurn s ∧ s.fsm = .ePix ∧ s.dst.wf = true ∧ assemble s.src s.rp.toNat s.ch = s.pxPrev ∧
      ¬ (s.run.toNat + 1 = 62 ∨ s.i.toNat + 1 = s.n.toNat) := by decide

theorem witness_EncodeChangedPixelStep : let s := { encoding [5, 5, 5, 5] with run := 2 }
    CoreTurn s ∧ s.fsm = .ePix ∧ s.dst.wf = true ∧ s.run.toNat ≤ 62 ∧ s.rp.toNat + unitBytes s.ch ≤ Config.addressSpace ∧
      s.wp.toNat + 6 ≤ Config.addressSpace ∧ assemble s.src s.rp.toNat s.ch ≠ s.pxPrev ∧
      s.cacheRead (pixelHash 0x05050505#32) ≠ 0x05050505#32 := by decide

theorem witness_EncodeChangedPixelStep_hit : let s := encoding [0, 0, 0, 0]
    CoreTurn s ∧ s.fsm = .ePix ∧ s.dst.wf = true ∧ assemble s.src s.rp.toNat s.ch ≠ s.pxPrev ∧
      s.cacheRead (pixelHash 0#32) = 0#32 := by decide

/-- The invariant's parts, one at a time. -/
theorem inv_ending : Inv ending := ⟨by decide, by decide, by decide, by decide, by decide, by decide⟩

theorem inv_header : Inv header := ⟨by decide, by decide, by decide, by decide, by decide, by decide⟩

theorem inv_encoding : Inv (encoding [5, 5, 5, 5]) := ⟨by decide, by decide, by decide, by decide, by decide, by decide⟩

theorem inv_decoding : Inv (decoding [0xFE, 1, 2, 3]) := ⟨by decide, by decide, by decide, by decide, by decide, by decide⟩

theorem witness_EncodeEndStep : CoreTurn ending ∧ ending.fsm = .eEnd ∧ ending.dst.wf = true ∧
    ending.wp.toNat + 8 ≤ Config.addressSpace := by decide

theorem witness_ChosenChunkGivesThePixelBack : EmitRoom (decoding []) := by decide

theorem witness_starts : let s := host (.regWrite 4 0 1)
    s.busy = false ∧ (1#32).extractLsb' 0 2 = 0b01#2 ∧ (2#32).extractLsb' 0 2 = 0b10#2 ∧ (3#32).extractLsb' 0 2 = 0b11#2 := by
  decide

/-- An accepted encode start, an accepted decode start. -/
theorem witness_starts_accepted :
    look (step { header with fsm := .idle, inbox := [.regWrite 4 0 1] }) (fun t => t.fsm) = some .eHdr ∧
    look (step { State.reset with srcLen := 22, src := Memory.setBytes [] 0 (headerOf 1 1 3 0), inbox := [.regWrite 4 0 2] })
      (fun t => (t.fsm, t.rp, t.oc)) = some (.dPix, 14, 3) := by decide

theorem witness_FailedStartChangesThreeRegisters : StartsOperation (.regWrite 4 0 3) ∧ (host (.regWrite 4 0 3)).busy = false ∧
    look (step (host (.regWrite 4 0 3))) (fun t => t.fsm) = some .error := ⟨⟨3, rfl, by decide⟩, by decide, by decide⟩

/-- Host actions that start nothing: a wait, and a CTRL write of 00. -/
theorem witness_OnlyAStartOrResetLeavesDoneAndError : let s := { host (.regWrite 4 0 4) with fsm := .done, wp := 26 }
    s.busy = false ∧ look (step s) (fun t => (t.fsm, t.wp)) = some (.done, 26) ∧
      ∀ e es, s.inbox = e :: es → e ≠ .reset ∧ ¬ StartsOperation e := by
  refine ⟨by decide, by decide, fun e es h => ?_⟩
  obtain ⟨rfl, rfl⟩ := List.cons.inj h
  refine ⟨by decide, fun ⟨v, hv, hne⟩ => hne ?_⟩
  have : v = 4 := by injection hv with _ _ h; exact h.symm
  subst this; decide

theorem witness_host_accesses : (host (.regRead 4 4)).busy = false ∧ header.busy = true ∧ (0x0C#32).toNat % 4 = 0 ∧
    (host (.srcWrite 5 7)).src.wf = true := by decide

theorem witness_ResetInAnyState : { encoding [] with inbox := [.reset] }.inbox = .reset :: [] ∧
    (encoding []).fsm ≠ .dPix ∧ 5 * (encoding []).n.toNat + 22 ≤ 32 ∧ (decoding []).n.toNat * (decoding []).oc.toNat ≤ 16 := by
  decide

theorem witness_CacheSlotsHoldTheirHash : CacheInv (decoding [0x40]) ∧
    look (step (decoding [0x40])) (fun t => t.fsm) = some .dPix := by
  refine ⟨fun _ => by decide, by decide⟩

/-- A start from a state that is not BUSY, and a step inside a decode whose four latches stand as its start left them. -/
theorem witness_LatchesHoldForTheWholeOperation :
    let s := { decoding [0x40] with ch := 4 }
    LatchInv s ∧ s.busy = true ∧ look (step s) (fun t => t.fsm) = some .dPix ∧
      LatchInv { header with fsm := .idle, inbox := [.regWrite 4 0 1] } := by
  refine ⟨fun _ => by decide, by decide, by decide, fun h => by cases h⟩

/-- An encode start that is accepted, and a step of the encoder. -/
theorem witness_EncoderDoesNotReadDesiredChannels :
    let s := { header with fsm := .idle, inbox := [.regWrite 4 0 1] }
    EncoderTurn s ∧ look (step s) (fun t => t.fsm) = some .eHdr ∧
      EncoderTurn ending ∧ look (step ending) (fun t => t.fsm) = some .done :=
  ⟨.inl ⟨rfl, 1, [], rfl, by decide⟩, by decide, .inr ⟨rfl, .inr (.inr rfl)⟩, by decide⟩

theorem witness_core_steps : Inv (decoding [0xFE, 1, 2, 3]) ∧ CoreTurn (decoding [0xFE, 1, 2, 3]) ∧
    (decoding [0xFE, 1, 2, 3]).fsm = .dPix ∧ look (step (decoding [0xFE, 1, 2, 3])) (fun t => t.rp) = some 18 :=
  ⟨inv_decoding, by decide, by decide, by decide⟩

theorem witness_CoreReadsSrcBelowItsLength : ∀ a, a < (decoding [0xFE, 1, 2, 3]).srcLen.toNat →
    Memory.get ((decoding [0xFE, 1, 2, 3]).src ++ [(30, 9)]) a = (decoding [0xFE, 1, 2, 3]).src.get a := by decide

theorem witness_EncodeReachesDoneWithinTheBound : Inv header ∧ CoreTurn header ∧ header.fsm = .eHdr :=
  ⟨inv_header, by decide, by decide⟩

/-- An idle host about to encode the image of `header`. -/
def encodeRequest : State := { header with fsm := .idle, inbox := [.regWrite 4 0 1] }

/-- The same inputs after another operation: other leftovers, another SRC byte above SRC_LEN. -/
def encodeRequestAgain : State :=
  { encodeRequest with fsm := .done, wp := 9, px := 7, run := 5, desiredChannels := 4, src := encodeRequest.src ++ [(3, 1)] }

/-- An idle host about to decode the 23 bytes of that image's encoding (V-ENC-27). -/
def decodeRequest : State :=
  { State.reset with
    src := Memory.setBytes [] 0 (headerOf 1 1 3 0 ++ [0x7F] ++ Config.endMarker), srcLen := 23, inbox := [.regWrite 4 0 2] }

theorem inv_encodeRequest : Inv encodeRequest := ⟨by decide, by decide, by decide, by decide, by decide, by decide⟩

theorem inv_encodeRequestAgain : Inv encodeRequestAgain := ⟨by decide, by decide, by decide, by decide, by decide, by decide⟩

theorem inv_decodeRequest : Inv decodeRequest := ⟨by decide, by decide, by decide, by decide, by decide, by decide⟩

theorem witness_EncodeDependsOnItsInputsAlone : let s := encodeRequest
    let s' := encodeRequestAgain
    Inv s ∧ Inv s' ∧ s.busy = false ∧ s'.busy = false ∧ s.inbox = [.regWrite 4 0 1] ∧ s'.inbox = [.regWrite 4 0 1] ∧
      s.width = s'.width ∧ s.height = s'.height ∧ s.channels = s'.channels ∧ s.colorspace = s'.colorspace ∧
      s.srcLen = s'.srcLen ∧ (∀ a, a < s.srcLen.toNat → s.src.get a = s'.src.get a) ∧
      look (stepN 2 s) (fun t => t.wp) = some 14 ∧ look (stepN 2 s') (fun t => t.wp) = some 14 :=
  ⟨inv_encodeRequest, inv_encodeRequestAgain, by decide⟩

/-- The encode of (1,1,1) and the decode of its bytes meet the round trip's hypotheses, and it comes out (V-ENC-27). -/
theorem witness_DecodeOfEncodeRoundTrip : Inv encodeRequest ∧ encodeRequest.busy = false ∧
    encodeRequest.inbox = [.regWrite 4 0 1] ∧ look (step encodeRequest) (fun t => (t.fsm, t.n)) = some (.eHdr, 1) ∧
    Inv decodeRequest ∧ decodeRequest.busy = false ∧ decodeRequest.inbox = [.regWrite 4 0 2] ∧
    decodeRequest.desiredChannels = 0 ∧
    look (stepN 4 encodeRequest) (fun e => (e.fsm, e.wp, (List.range 23).all (fun a => decodeRequest.src.get a == e.dst.get a))) =
      some (.done, decodeRequest.srcLen, true) ∧
    look (stepN 2 decodeRequest) (fun t => (t.fsm, out 3 t)) = some (.done, [1, 1, 1]) :=
  ⟨inv_encodeRequest, by decide, rfl, by decide, inv_decodeRequest, by decide, rfl, by decide, by decide, by decide⟩

end Sys2Proof.Tests
end

section
/-! PROOF. What a step can do, said once: the host's actions, the encoder's steps, the decoder's steps. -/

namespace Sys2Proof.Machine

open Sys2Proof.Safety

/-! ### The step and the host's actions -/

/-- All that a step can do: the core's own turn, a reset, a read or an access without effect, a write to SRC, a register
write. The last two act only while not BUSY (R22, R47). -/
theorem step_cases {s t : State} (h : step s = .next t) :
    (∃ es, coreStep { s with inbox := es } = .next t) ∨
    (∃ es, t = resetMachine { s with inbox := es }) ∨
    (∃ es rd k, t = { s with inbox := es, readData := rd, draws := k }) ∨
    (s.busy = false ∧ ∃ (es : List HostEvent) (a : Word) (v : Byte),
      t = { s with inbox := es, src := s.src.set a.toNat v }) ∨
    (s.busy = false ∧ ∃ es off v, t = regUpdate off v { s with inbox := es }) := by
  cases hi : s.inbox with
  | nil =>
    rw [step_core hi] at h
    exact .inl ⟨s.inbox, h⟩
  | cons e es =>
    rw [step_host hi] at h
    cases e with
    | wait => exact .inl ⟨es, h⟩
    | reset => cases h; exact .inr (.inl ⟨es, rfl⟩)
    | regRead size off =>
      simp only [hostStep, hostRegRead] at h
      split at h
      · cases h; exact .inr (.inr (.inl ⟨es, _, _, rfl⟩))
      · cases h
    | regWrite size off v =>
      simp only [hostStep, hostRegWrite] at h
      split at h
      · cases h
        split
        · exact .inr (.inr (.inl ⟨es, _, _, rfl⟩))
        next hb => exact .inr (.inr (.inr (.inr ⟨Bool.eq_false_iff.2 hb, es, off, v, rfl⟩)))
      · cases h
    | srcRead a =>
      cases h
      refine .inr (.inr (.inl ?_))
      split <;> exact ⟨es, _, _, rfl⟩
    | srcWrite a v =>
      simp only [hostStep, hostSrcWrite] at h
      split at h
      · cases h
      · cases h
        exact .inr (.inr (.inr (.inl ⟨Bool.eq_false_iff.2 ‹_›, es, a, v, rfl⟩)))
    | dstRead a =>
      cases h
      refine .inr (.inr (.inl ?_))
      split <;> exact ⟨es, _, _, rfl⟩

/-- A write elsewhere than at CTRL sets host registers alone. -/
theorem regUpdate_of_ne {off : Word} (h : off ≠ 0x00#32) (v : Word) (s : State) :
    ∃ w h c cs d l, regUpdate off v s =
      { s with width := w, height := h, channels := c, colorspace := cs, desiredChannels := d, srcLen := l } := by
  unfold regUpdate
  rw [if_neg h]
  split_ifs <;> exact ⟨_, _, _, _, _, _, rfl⟩

/-- All that a CTRL write can do while not BUSY: nothing, or a start that fails, or an accepted start. -/
theorem ctrlWrite_cases (v : Word) (s : State) :
    ctrlWrite v s = s ∨ (∃ c, ctrlWrite v s = raiseError c s) ∨
    (headerFieldsValid s.width s.height s.channels s.colorspace = true ∧
      s.srcLen.toNat = s.width.toNat * s.height.toNat * s.channels.toNat ∧ ctrlWrite v s = encodeAccept s) ∨
    (∃ w h c cs, desiredLegal s.desiredChannels = true ∧ headerFieldsValid w h c cs = true ∧
      22 ≤ s.srcLen.toNat ∧ ctrlWrite v s = decodeAccept w h c cs s) := by
  by_cases h1 : v.extractLsb' 0 2 = 0b01#2
  · rw [show ctrlWrite v s = encodeStart s from if_pos h1]
    obtain ⟨c, -, hc⟩ | ⟨-, hv, hl, ha⟩ := encodeStart_cases s
    · exact .inr (.inl ⟨c, hc⟩)
    · exact .inr (.inr (.inl ⟨hv, hl, ha⟩))
  · by_cases h2 : v.extractLsb' 0 2 = 0b10#2
    · rw [show ctrlWrite v s = decodeStart s from (if_neg h1).trans (if_pos h2)]
      obtain ⟨c, -, hc⟩ | ⟨hd, hl, hv, ha⟩ := decodeStart_cases s
      · exact .inr (.inl ⟨c, hc⟩)
      · exact .inr (.inr (.inr ⟨_, _, _, _, hd, (Bool.and_eq_true_iff.1 hv).2, hl, ha⟩))
    · by_cases h3 : v.extractLsb' 0 2 = 0b11#2
      · exact .inr (.inl ⟨.badRequest, by simp [ctrlWrite, h3]⟩)
      · exact .inl (by simp [ctrlWrite, h1, h2, h3])

/-- All that a register write can do while not BUSY: it sets host registers, or it is a start that fails, or an accepted
encode start, or an accepted decode start. -/
theorem regUpdate_cases (off v : Word) (s : State) :
    (∃ w h c cs d l, regUpdate off v s =
      { s with width := w, height := h, channels := c, colorspace := cs, desiredChannels := d, srcLen := l }) ∨
    (∃ c, regUpdate off v s = raiseError c s) ∨
    (headerFieldsValid s.width s.height s.channels s.colorspace = true ∧
      s.srcLen.toNat = s.width.toNat * s.height.toNat * s.channels.toNat ∧ regUpdate off v s = encodeAccept s) ∨
    (∃ w h c cs, desiredLegal s.desiredChannels = true ∧ headerFieldsValid w h c cs = true ∧
      22 ≤ s.srcLen.toNat ∧ regUpdate off v s = decodeAccept w h c cs s) := by
  by_cases h0 : off = 0x00#32
  · rw [show regUpdate off v s = ctrlWrite v s from if_pos h0]
    obtain same | rest := ctrlWrite_cases v s
    · exact .inl ⟨_, _, _, _, _, _, same⟩
    · exact .inr rest
  · exact .inl (regUpdate_of_ne h0 v s)

/-- R54 spelled out. -/
theorem headerFieldsValid_iff {w h : Word} {ch cs : Byte} :
    headerFieldsValid w h ch cs = true ↔ HeaderLegal w h ch cs := by
  simp only [headerFieldsValid, Bool.and_eq_true, Bool.or_eq_true, decide_eq_true_eq, and_assoc]
  rfl

/-- The pixel count of a legal header fits its register. -/
theorem pixelCount_toNat {w h : Word} (hl : w.toNat * h.toNat < 400000000) :
    (BitVec.ofNat 32 (w.toNat * h.toNat)).toNat = w.toNat * h.toNat := by
  rw [BitVec.toNat_ofNat]; omega

/-- OC is 3 or 4 where the channel byte of the header is (R32). -/
theorem outputChannels_three_or_four {ch : Byte} (h : ch = 3#8 ∨ ch = 4#8) (d : Byte) :
    outputChannels d ch = 3#8 ∨ outputChannels d ch = 4#8 := by
  unfold outputChannels
  split
  · assumption
  · exact h

/-! ### Pixels, counters and the latched values -/

theorem alpha_pack (r g b a : Byte) : alpha (pack r g b a) = a := BitVec.extractLsb'_append_eq_right

/-- The alpha of a unit of three channels is 255 (R72). -/
theorem alpha_assemble_three (m : Memory) (a : Nat) : alpha (assemble m a 3#8) = 255#8 := alpha_pack _ _ _ _

/-- A pointer that stands at `i` pixels stands at `i + 1` of them after one more step; it does not wrap. -/
theorem toNat_add_channels {x i : Word} {c : Byte} (hx : x.toNat = i.toNat * c.toNat) (hc : c = 3#8 ∨ c = 4#8)
    (hi : i.toNat < 400000000) : (x + c.setWidth 32).toNat = (i.toNat + 1) * c.toNat := by
  obtain rfl | rfl := hc <;> simp only [BitVec.toNat_add, BitVec.toNat_setWidth, BitVec.toNat_ofNat] at hx ⊢ <;> omega

/-- The next counter value, where the bound keeps it from wrapping. -/
theorem toNat_add_one {i n : Word} (h : i.toNat < n.toNat) : (i + 1).toNat = i.toNat + 1 := by bv_omega

/-- CH is 3 or 4 from an accepted encode start on. -/
theorem ch_of_encodeLatched {s : State} (h : EncodeLatched s) : s.ch = 3#8 ∨ s.ch = 4#8 := by
  obtain ⟨hv, hch, -⟩ := h
  rw [hch]
  exact (headerFieldsValid_iff.1 hv).2.2.1

/-- N is below the limit from an accepted encode start on. -/
theorem n_lt_of_encodeLatched {s : State} (h : EncodeLatched s) : s.n.toNat < 400000000 := by
  obtain ⟨hv, -, hn, -⟩ := h
  rw [hn]
  exact (headerFieldsValid_iff.1 hv).2.2.2.2

/-! ### The encoder's steps -/

theorem encode_length (i : Instr) : (encode i).length = i.length := by cases i <;> rfl

theorem instr_length_pos (i : Instr) : 1 ≤ i.length := by
  unfold Instr.length; cases i.chunkClass <;> decide

theorem instr_length_le_five (i : Instr) : i.length ≤ 5 := by
  unfold Instr.length; cases i.chunkClass <;> decide

/-- Only RGBA is longer than four bytes (R57). -/
theorem instr_length_le_four {i : Instr} (h : i.chunkClass ≠ .rgba) : i.length ≤ 4 := by
  revert h; unfold Instr.length; cases i.chunkClass <;> decide

/-- Writing to a cache slot what it holds changes nothing. -/
theorem cacheWrite_cacheRead (s : State) (k : Slot) : s.cacheWrite k (s.cacheRead k) = s := by
  simp [State.cacheWrite, State.cacheRead]

/-- R83, R85, R86: the chunk of a changed pixel. -/
def changedChunk (p : Word) (s : State) : Instr :=
  if s.cacheRead (pixelHash p) = p then .index (pixelHash p) else missChunk p s.pxPrev

/-- A changed pixel ends in its slot, hit or miss, and its chunk is written. -/
theorem emitChanged_eq (p : Word) (s : State) :
    emitChanged p s = emitChunk (changedChunk p s) (s.cacheWrite (pixelHash p) p) := by
  unfold emitChanged changedChunk
  split
  next hit =>
    have := cacheWrite_cacheRead s (pixelHash p)
    rw [hit] at this
    rw [this]
  · rfl

/-- A changed pixel's chunk is RGBA only where alpha changed (R83). -/
theorem changedChunk_ne_rgba {p : Word} {s : State} (ha : alpha p = alpha s.pxPrev) :
    (changedChunk p s).chunkClass ≠ .rgba := by
  simp only [changedChunk, missChunk, if_pos ha]
  split
  · nofun
  · split
    · nofun
    · split <;> nofun

/-- All that writing a changed pixel can do: from 1 to 5 bytes are written, 5 only where alpha changed. -/
theorem emitChanged_next {p : Word} {s t : State} (h : emitChanged p s = .next t) :
    ∃ d c k, t = { s with dst := d, wp := s.wp + BitVec.ofNat 32 k, cache := c } ∧
      (s.dst.wf = true → d.wf = true) ∧ 1 ≤ k ∧ k ≤ if alpha p = alpha s.pxPrev then 4 else 5 := by
  rw [emitChanged_eq] at h
  obtain ⟨room, rfl⟩ := putBytes_next h
  refine ⟨_, _, (encode (changedChunk p s)).length, rfl, fun hd => DstMemory.setBytes_wf hd room, ?_, ?_⟩
  · rw [encode_length]; exact instr_length_pos _
  · rw [encode_length]
    split
    next ha => exact instr_length_le_four (changedChunk_ne_rgba ha)
    · exact instr_length_le_five _

/-- All that flushing an open run before a changed pixel can do (R83, R84). -/
theorem flushRun_next {s t : State} (h : flushRun s = .next t) :
    (s.run = 0 ∧ t = s) ∨
    (s.run ≠ 0 ∧ s.wp.toNat + 1 ≤ Config.addressSpace ∧
      t = { s with dst := s.dst.setBytes s.wp.toNat (encode (.run s.run.toNat)), wp := s.wp + 1, run := 0 }) := by
  unfold flushRun at h
  split at h
  · cases h; exact .inl ⟨‹_›, rfl⟩
  · exact .inr ⟨‹_›, emitRun_next h⟩

/-- All that a pixel equal to the one before can do: the run goes on, or it is written (R83, R84). -/
theorem repeatPixel_next {s t : State} (h : repeatPixel s = .next t) :
    (¬ (s.run + 1 = 62#6 ∨ lastPixel s = true) ∧ t = { s with run := s.run + 1 }) ∨
    ((s.run + 1 = 62#6 ∨ lastPixel s = true) ∧ s.wp.toNat + 1 ≤ Config.addressSpace ∧
      t = { s with
        dst := s.dst.setBytes s.wp.toNat (encode (.run (s.run + 1).toNat)), wp := s.wp + 1, run := 0 }) := by
  simp only [repeatPixel] at h
  split at h
  next hc => exact .inr ⟨hc, emitRun_next h⟩
  next hc => cases h; exact .inl ⟨hc, rfl⟩

/-- What the choice of E_PIX makes of `wp` and of the run of `s`, whose `px` is the pixel read: the run goes on and nothing
is written, or no run is left open and from 1 to 6 bytes are written, one of them for a run that was open. -/
def PixelEmission (s : State) (w : Word) (r : BitVec 6) : Prop :=
  (s.run + 1 ≠ 62#6 ∧ s.i.toNat + 1 ≠ s.n.toNat ∧ r = s.run + 1 ∧ w = s.wp) ∨
  (r = 0 ∧ ∃ k, 1 ≤ k ∧ k ≤ (if s.run = 0 then 0 else 1) + (if alpha s.px = alpha s.pxPrev then 4 else 5) ∧
    w = s.wp + BitVec.ofNat 32 k)

/-- All that the choice for a pixel can do: it changes DST, `wp`, the run and the cache alone. -/
theorem encodeChoose_next {s t : State} (h : encodeChoose s = .next t) :
    ∃ d w r c, t = { s with dst := d, wp := w, run := r, cache := c } ∧ (s.dst.wf = true → d.wf = true) ∧
      PixelEmission s w r := by
  unfold encodeChoose at h
  split at h
  next same =>
    obtain ⟨hc, rfl⟩ | ⟨-, room, rfl⟩ := repeatPixel_next h
    · obtain ⟨h62, hlast⟩ := not_or.1 hc
      exact ⟨_, _, _, _, rfl, id, .inl ⟨h62, by simpa [lastPixel] using hlast, rfl, rfl⟩⟩
    · refine ⟨_, _, _, _, rfl, fun hd => DstMemory.setBytes_wf hd room, .inr ⟨rfl, 1, le_rfl, ?_, rfl⟩⟩
      rw [same, if_pos rfl]; omega
  next changed =>
    obtain ⟨u, hu, ht⟩ := andThen_eq_next h
    obtain ⟨d, c, k, rfl, hd, hk1, hk⟩ := emitChanged_next ht
    obtain ⟨hr, rfl⟩ | ⟨hr, room, rfl⟩ := flushRun_next hu
    · refine ⟨d, _, u.run, c, rfl, hd, .inr ⟨hr, k, hk1, ?_, rfl⟩⟩
      rw [if_pos hr]; omega
    · refine ⟨d, _, 0, c, rfl, fun h0 => hd (DstMemory.setBytes_wf h0 room), .inr ⟨rfl, 1 + k, by omega, ?_, ?_⟩⟩
      · rw [if_neg hr]; exact Nat.add_le_add_left hk 1
      · rw [BitVec.ofNat_add, ← BitVec.add_assoc]; rfl

/-- All that a step in E_PIX can do (R83). -/
theorem encodePixel_next {s t : State} (h : encodePixel s = .next t) :
    ∃ d w r c, t = encodeAdvance { takeUnit s with dst := d, wp := w, run := r, cache := c } ∧
      (s.dst.wf = true → d.wf = true) ∧ PixelEmission (takeUnit s) w r := by
  unfold encodePixel at h
  split at h
  · obtain ⟨u, hu, ht⟩ := andThen_eq_next h
    obtain ⟨d, w, r, c, rfl, hd, hp⟩ := encodeChoose_next hu
    cases ht
    exact ⟨d, w, r, c, rfl, hd, hp⟩
  · cases h

/-- The step in E_HDR (R82): it has no other outcome. -/
theorem encodeHeader_eq (s : State) :
    encodeHeader s = .next { s with
      dst := s.dst.setBytes 0 (headerOf s.width s.height s.channels s.colorspace), wp := 14, fsm := .ePix } := by
  rw [encodeHeader, writeDst_room (by simp [headerOf, wordBytes, Config.addressSpace])]
  rfl

/-- All that the step in E_END can do (R91). -/
theorem encodeEnd_next {s t : State} (h : encodeEnd s = .next t) :
    s.wp.toNat + 8 ≤ Config.addressSpace ∧
      t = { s with dst := s.dst.setBytes s.wp.toNat Config.endMarker, wp := s.wp + 8, fsm := .done } := by
  obtain ⟨u, hu, ht⟩ := andThen_eq_next h
  obtain ⟨room, rfl⟩ := putBytes_next hu
  cases ht
  exact ⟨room, rfl⟩

/-! ### The decoder's step -/

/-- The run a chunk leaves: RUN loads it with the repeats after its first pixel (R103), no other chunk touches it. -/
def runAfter : Instr → BitVec 6 → BitVec 6
  | .run n, _ => BitVec.ofNat 6 (n - 1)
  | .rgb _ _ _, r => r
  | .rgba _ _ _ _, r => r
  | .index _, r => r
  | .diff _ _ _, r => r
  | .luma _ _ _, r => r

/-- All that a chunk's step can do: it moves `rp` past the chunk, sets the run, `px` and the cache, and retires the pixel. -/
theorem exec_next {i : Instr} {s t : State} (h : exec i s = .next t) :
    EmitRoom s ∧ ∃ p c, t = retired { s with
      rp := s.rp + BitVec.ofNat 32 i.length, run := runAfter i s.run, px := p, cache := c } := by
  cases i with
  | rgb r g b => obtain ⟨room, rfl⟩ := storingChunk_next h; exact ⟨room, _, _, rfl⟩
  | rgba r g b a => obtain ⟨room, rfl⟩ := storingChunk_next h; exact ⟨room, _, _, rfl⟩
  | index k =>
    obtain ⟨room, rfl⟩ := retirePixel_next h
    rw [emitRoom_iff] at room ⊢
    exact ⟨room, _, _, rfl⟩
  | diff dr dg db => obtain ⟨room, rfl⟩ := storingChunk_next h; exact ⟨room, _, _, rfl⟩
  | luma dg drg dbg => obtain ⟨room, rfl⟩ := storingChunk_next h; exact ⟨room, _, _, rfl⟩
  | run n =>
    obtain ⟨room, rfl⟩ := storingChunk_next h
    rw [emitRoom_iff] at room ⊢
    exact ⟨room, _, _, rfl⟩

theorem fieldAt_of_classOf_run : ∀ b : Byte, classOf b = .run → fieldAt b 0 6 ≤ 61 := by decide

/-- A RUN chunk that has been read leaves at most 61 repeats (R61, R28). -/
theorem runAfter_of_decode {bs rest : List Byte} {i : Instr} (h : decode bs = .ok (i, rest)) :
    (runAfter i 0).toNat ≤ 61 := by
  cases i with
  | run n =>
    unfold decode at h
    split at h
    · cases h
    · split at h <;> cases h
      have := fieldAt_of_classOf_run _ ‹_›
      simp only [runAfter, Nat.add_sub_cancel, BitVec.toNat_ofNat]
      omega
  | _ => exact Nat.zero_le _

/-- A chunk that has been fetched was decoded from the bytes at `rp` (R95). -/
theorem fetchChunk_ok {s : State} {i : Instr} (h : fetchChunk s = .ok i) :
    ∃ rest, decode (chunkBytes s) = .ok (i, rest) := by
  unfold fetchChunk at h
  split at h
  next rest hdec => cases h; exact ⟨rest, hdec⟩
  · cases h
  · cases h

/-- All that a D_PIX step can do (R95 to R97): a chunk is read only with no run open and `rp` below CEND. -/
theorem decodePixel_next {s t : State} (h : decodePixel s = .next t) :
    EmitRoom s ∧ ∃ p c r q, t = retired { s with rp := q, run := r, px := p, cache := c } ∧
      ((s.run ≠ 0 ∧ r = s.run - 1 ∧ q = s.rp) ∨
       (r.toNat ≤ 61 ∧ s.rp.toNat < s.cend.toNat ∧ ∃ k, 1 ≤ k ∧ k ≤ 5 ∧ q = s.rp + BitVec.ofNat 32 k) ∨
       (r = 0 ∧ q = s.rp)) := by
  unfold decodePixel at h
  split at h
  next hr =>
    obtain ⟨room, rfl⟩ := retirePixel_next h
    exact ⟨room, _, _, _, _, rfl, .inl ⟨hr, rfl, rfl⟩⟩
  next hr =>
    have hr : s.run = 0 := not_not.1 hr
    split at h
    next hrp =>
      unfold runChunk at h
      split at h
      next i hi =>
        obtain ⟨room, p, c, rfl⟩ := exec_next h
        obtain ⟨rest, hdec⟩ := fetchChunk_ok hi
        have hr61 : (runAfter i s.run).toNat ≤ 61 := hr ▸ runAfter_of_decode hdec
        exact ⟨room, p, c, _, _, rfl,
          .inr (.inl ⟨hr61, hrp, _, instr_length_pos i, instr_length_le_five i, rfl⟩)⟩
      · cases h
    · obtain ⟨room, rfl⟩ := retirePixel_next h
      exact ⟨room, s.px, s.cache, s.run, s.rp, rfl, .inr (.inr ⟨hr, rfl⟩)⟩

/-! ### The core's own step -/

/-- The core's own step, state by state. -/
theorem coreStep_cases {s t : State} (h : coreStep s = .next t) :
    (s.busy = false ∧ t = s) ∨ (s.fsm = .eHdr ∧ encodeHeader s = .next t) ∨
    (s.fsm = .ePix ∧ encodePixel s = .next t) ∨ (s.fsm = .eEnd ∧ encodeEnd s = .next t) ∨
    (s.fsm = .dPix ∧ decodePixel s = .next t) := by
  cases hf : s.fsm with
  | eHdr => rw [coreStep_eHdr hf] at h; exact .inr (.inl ⟨rfl, h⟩)
  | ePix => rw [coreStep_ePix hf] at h; exact .inr (.inr (.inl ⟨rfl, h⟩))
  | eEnd => rw [coreStep_eEnd hf] at h; exact .inr (.inr (.inr (.inl ⟨rfl, h⟩)))
  | dPix => rw [coreStep_dPix hf] at h; exact .inr (.inr (.inr (.inr ⟨rfl, h⟩)))
  | _ =>
    have hb : s.busy = false := by rw [State.busy, hf]; rfl
    rw [coreStep_waiting hb] at h
    cases h; exact .inl ⟨hb, rfl⟩

end Sys2Proof.Machine
end

section
/-! PROOF. The invariant of the state machines is kept by every step (O43). -/

namespace Sys2Proof.Proofs.Invariant

open Sys2Proof.Machine Sys2Proof.Safety

/-! ### States that are not BUSY, and the starts -/

/-- Outside an operation the invariant asks for canonical memories alone. -/
theorem inv_of_not_busy {s : State} (hb : s.busy = false) (hs : s.src.wf = true) (hd : s.dst.wf = true) : Inv s := by
  unfold State.busy at hb
  refine ⟨hs, hd, fun h => ?_, fun h => ?_, fun h => ?_, fun h => ?_⟩ <;> rw [h] at hb <;> cases hb

theorem inv_encodeAccept {s : State} (hs : s.src.wf = true) (hd : s.dst.wf = true)
    (hv : headerFieldsValid s.width s.height s.channels s.colorspace = true)
    (hl : s.srcLen.toNat = s.width.toNat * s.height.toNat * s.channels.toNat) : Inv (encodeAccept s) := by
  obtain ⟨-, -, -, -, hmax⟩ := headerFieldsValid_iff.1 hv
  have hn : (encodeAccept s).n.toNat = s.width.toNat * s.height.toNat := pixelCount_toNat hmax
  refine ⟨hs, hd, fun _ => ⟨⟨hv, rfl, hn, ?_⟩, rfl, rfl, rfl, rfl, rfl⟩, nofun, nofun, nofun⟩
  rw [hn]; exact hl

theorem inv_decodeAccept {s : State} {w h : Word} {ch cs : Byte} (hs : s.src.wf = true) (hd : s.dst.wf = true)
    (hdes : desiredLegal s.desiredChannels = true) (hv : headerFieldsValid w h ch cs = true)
    (hl : 22 ≤ s.srcLen.toNat) : Inv (decodeAccept w h ch cs s) := by
  obtain ⟨hw, hh, -, -, hmax⟩ := headerFieldsValid_iff.1 hv
  have hn : (decodeAccept w h ch cs s).n.toNat = w.toNat * h.toNat := pixelCount_toNat hmax
  have hi : (decodeAccept w h ch cs s).i.toNat < (decodeAccept w h ch cs s).n.toNat := by
    rw [hn]; exact Nat.mul_pos hw hh
  have hwp : (decodeAccept w h ch cs s).wp.toNat =
      (decodeAccept w h ch cs s).i.toNat * (decodeAccept w h ch cs s).oc.toNat := (Nat.zero_mul _).symm
  have hc : (decodeAccept w h ch cs s).cend.toNat + 8 = s.srcLen.toNat :=
    endOfChunks_add (Nat.le_trans (by decide) hl)
  have hrp : (decodeAccept w h ch cs s).rp.toNat = 14 := rfl
  exact ⟨hs, hd, nofun, nofun, nofun,
    fun _ => ⟨hv, hdes, rfl, hn, hi, hwp, hc, by omega, by omega, by omega, Nat.zero_le _⟩⟩

theorem inv_regUpdate {s : State} (hb : s.busy = false) (h : Inv s) (off v : Word) : Inv (regUpdate off v s) := by
  obtain ⟨hs, hd, -⟩ := h
  obtain ⟨w, h, c, cs, d, l, heq⟩ | ⟨c, heq⟩ | ⟨hv, hl, heq⟩ | ⟨w, h, c, cs, hdes, hv, hl, heq⟩ := regUpdate_cases off v s
  · rw [heq]; exact inv_of_not_busy hb hs hd
  · rw [heq]; exact inv_of_not_busy rfl hs hd
  · rw [heq]; exact inv_encodeAccept hs hd hv hl
  · rw [heq]; exact inv_decodeAccept hs hd hdes hv hl

theorem inv_resetMachine {s : State} (h : Inv s) : Inv (resetMachine s) := by
  obtain ⟨hs, hd, -⟩ := h
  exact inv_of_not_busy rfl hs (DstMemory.cutBelow_wf _ hd (Nat.min_le_right _ _))

/-! ### The encoder's steps -/

theorem inv_encodeHeader {s t : State} (hf : s.fsm = .eHdr) (h : Inv s) (ht : encodeHeader s = .next t) : Inv t := by
  obtain ⟨hs, hd, hhdr, -⟩ := h
  obtain ⟨hl, hi, hrp, -, hrun, hpx⟩ := hhdr hf
  rw [encodeHeader_eq] at ht
  cases ht
  obtain ⟨hw, hh, -⟩ := headerFieldsValid_iff.1 hl.1
  have hn : 0 < s.n.toNat := by rw [hl.2.2.1]; exact Nat.mul_pos hw hh
  have hprog : EncodeProgress { s with
      dst := s.dst.setBytes 0 (headerOf s.width s.height s.channels s.colorspace), wp := 14, fsm := .ePix } := by
    refine ⟨by simp [hi, hrp], by simp [hrun], fun _ => hpx ▸ rfl, le_rfl, fun h => ?_, by simp [hrun, hi]⟩
    simp [hi] at h
  refine ⟨hs, DstMemory.setBytes_wf hd ?_, nofun, fun _ => ⟨hl, hprog, by simpa [hi] using hn⟩, nofun, nofun⟩
  simp [headerOf, wordBytes, Config.addressSpace]

/-- Where the run goes on, it stays below 62 and is open. -/
theorem run_add_one {r : BitVec 6} (h : r.toNat ≤ 61) (h62 : r + 1 ≠ 62#6) :
    (r + 1).toNat = r.toNat + 1 ∧ r.toNat + 1 ≤ 61 := by bv_omega

/-- The bytes of one E_PIX step: at most CH + 1, and one more where a run was open; the fifth byte of RGBA needs a changed
alpha, which three channels never give (R72, R92). -/
theorem emitted_le {s : State} {k : Nat} (hch : s.ch = 3#8 ∨ s.ch = 4#8) (ha : s.ch = 3#8 → alpha s.pxPrev = 255#8)
    (hk : k ≤ (if s.run = 0 then 0 else 1) + (if alpha (takeUnit s).px = alpha s.pxPrev then 4 else 5)) :
    k ≤ (if s.run = 0 then 0 else 1) + (s.ch.toNat + 1) := by
  refine hk.trans (Nat.add_le_add_left ?_ _)
  obtain h3 | h4 := hch
  · have : alpha (takeUnit s).px = alpha s.pxPrev := by
      rw [ha h3, takeUnit_px, h3]; exact alpha_assemble_three _ _
    rw [if_pos this, h3]; decide
  · rw [h4]; split <;> decide

/-- An E_PIX step keeps the progress of an encode: it moves `rp` by CH, and `wp` by at most CH + 1 with the byte of an
open run counted when the run opens (R92). -/
theorem encodeProgress_encodeAdvance {s : State} (d : DstMemory) {w : Word} {r : BitVec 6} (c : Vector Word 64)
    (hl : EncodeLatched s) (h : EncodeProgress s) (hi : s.i.toNat < s.n.toNat) (he : PixelEmission (takeUnit s) w r) :
    EncodeProgress (encodeAdvance { takeUnit s with dst := d, wp := w, run := r, cache := c }) := by
  obtain ⟨hrp, hrun, ha, hwp, hwp1, hbound⟩ := h
  have hn := n_lt_of_encodeLatched hl
  have hch := ch_of_encodeLatched hl
  have hc : s.ch.toNat ≤ 4 := by obtain h | h := hch <;> rw [h] <;> decide
  have hi1 : (s.i + 1).toNat = s.i.toNat + 1 := toNat_add_one hi
  have hmul : s.i.toNat * (s.ch.toNat + 1) ≤ 400000000 * 5 := Nat.mul_le_mul (by omega) (by omega)
  have hstep : (s.i.toNat + 1) * (s.ch.toNat + 1) = s.i.toNat * (s.ch.toNat + 1) + (s.ch.toNat + 1) := Nat.succ_mul _ _
  have hrp' : (s.rp + s.ch.setWidth 32).toNat = (s.i + 1).toNat * s.ch.toNat := by
    rw [hi1]; exact toNat_add_channels hrp hch (hi.trans hn)
  have halpha : s.ch = 3#8 → alpha (takeUnit s).px = 255#8 := fun h => by
    rw [takeUnit_px, h]; exact alpha_assemble_three _ _
  obtain ⟨h62, -, rfl, rfl⟩ | ⟨rfl, k, hk1, hk, rfl⟩ := he
  · obtain ⟨hr1, hr61⟩ := run_add_one hrun h62
    have hopen : s.run + 1 ≠ 0 := fun h => by rw [h] at hr1; cases hr1
    refine ⟨hrp', hr1.trans_le hr61, halpha, hwp, fun h => absurd h.2 hopen, ?_⟩
    show s.wp.toNat + (if s.run + 1 = 0 then 0 else 1) ≤ 14 + (s.i + 1).toNat * (s.ch.toNat + 1)
    rw [if_neg hopen, hi1, hstep]
    omega
  · have hk' := emitted_le hch ha hk
    have hw : (s.wp + BitVec.ofNat 32 k).toNat = s.wp.toNat + k := by
      rw [BitVec.toNat_add, BitVec.toNat_ofNat]
      omega
    refine ⟨hrp', Nat.zero_le _, halpha, ?_, fun _ => ?_, ?_⟩
    · show 14 ≤ (s.wp + BitVec.ofNat 32 k).toNat
      omega
    · show 15 ≤ (s.wp + BitVec.ofNat 32 k).toNat
      omega
    · show (s.wp + BitVec.ofNat 32 k).toNat + 0 ≤ 14 + (s.i + 1).toNat * (s.ch.toNat + 1)
      rw [hw, hi1, hstep]
      omega

theorem inv_encodePixel {s t : State} (hf : s.fsm = .ePix) (h : Inv s) (ht : encodePixel s = .next t) : Inv t := by
  obtain ⟨hs, hd, -, hpix, -⟩ := h
  obtain ⟨hl, hp, hi⟩ := hpix hf
  obtain ⟨d, w, r, c, rfl, hwf, he⟩ := encodePixel_next ht
  have hp' := encodeProgress_encodeAdvance d c hl hp hi he
  have hi1 : (s.i + 1).toNat = s.i.toNat + 1 := toNat_add_one hi
  by_cases hlast : s.i + 1 = s.n
  · have hrun : r = 0 := by
      obtain ⟨-, hne, -⟩ | ⟨hr, -⟩ := he
      · exact absurd (hi1.symm.trans (congrArg BitVec.toNat hlast)) hne
      · exact hr
    have hfsm : (encodeAdvance { takeUnit s with dst := d, wp := w, run := r, cache := c }).fsm = .eEnd := if_pos hlast
    refine ⟨hs, hwf hd, ?_, ?_, fun _ => ⟨hl, hp', hlast, hrun⟩, ?_⟩ <;> rw [hfsm] <;> nofun
  · have hfsm : (encodeAdvance { takeUnit s with dst := d, wp := w, run := r, cache := c }).fsm = .ePix :=
      (if_neg hlast).trans hf
    have hlt : (s.i + 1).toNat < s.n.toNat := by
      have : (s.i + 1).toNat ≠ s.n.toNat := fun h => hlast (BitVec.eq_of_toNat_eq h)
      omega
    refine ⟨hs, hwf hd, ?_, fun _ => ⟨hl, hp', hlt⟩, ?_, ?_⟩ <;> rw [hfsm] <;> nofun

theorem inv_encodeEnd {s t : State} (h : Inv s) (ht : encodeEnd s = .next t) : Inv t := by
  obtain ⟨hs, hd, -⟩ := h
  obtain ⟨room, rfl⟩ := encodeEnd_next ht
  exact inv_of_not_busy rfl hs (DstMemory.setBytes_wf hd room)

/-! ### The decoder's step -/

/-- A D_PIX step keeps the invariant: `rp` moves by at most 5 from below CEND, `wp` by OC (R45, R105, R106). -/
theorem inv_decodePixel {s t : State} (hf : s.fsm = .dPix) (h : Inv s) (ht : decodePixel s = .next t) : Inv t := by
  obtain ⟨hs, hd, -, -, -, hdec⟩ := h
  obtain ⟨hv, hdes, hoc, hn, hi, hwp, hcend, hcend14, hrp14, hrp, hrun⟩ := hdec hf
  obtain ⟨room, p, c, r, q, rfl, hcase⟩ := decodePixel_next ht
  rw [emitRoom_iff] at room
  obtain ⟨-, -, hch, -, hmax⟩ := headerFieldsValid_iff.1 hv
  have hoc34 : s.oc = 3#8 ∨ s.oc = 4#8 := hoc ▸ outputChannels_three_or_four hch _
  have hwf : (retired { s with rp := q, run := r, px := p, cache := c }).dst.wf = true :=
    DstMemory.setBytes_wf hd (by rw [pixelBytes_length]; exact room)
  have hi1 : (s.i + 1).toNat = s.i.toNat + 1 := toNat_add_one hi
  by_cases hlast : s.i + 1 = s.n
  · have hfsm : (retired { s with rp := q, run := r, px := p, cache := c }).fsm = .done := if_pos hlast
    exact inv_of_not_busy (by rw [State.busy, hfsm]; rfl) hs hwf
  · have hfsm : (retired { s with rp := q, run := r, px := p, cache := c }).fsm = .dPix := (if_neg hlast).trans hf
    have hi' : (s.i + 1).toNat < s.n.toNat := by
      have : (s.i + 1).toNat ≠ s.n.toNat := fun h => hlast (BitVec.eq_of_toNat_eq h)
      omega
    have hwp' : (s.wp + s.oc.setWidth 32).toNat = (s.i + 1).toNat * s.oc.toNat := by
      rw [hi1]; exact toNat_add_channels hwp hoc34 (by omega)
    obtain ⟨hr61, hq14, hq⟩ : r.toNat ≤ 61 ∧ 14 ≤ q.toNat ∧ q.toNat ≤ s.cend.toNat + 4 := by
      obtain ⟨hne, rfl, rfl⟩ | ⟨hr, hlt, k, -, hk, rfl⟩ | ⟨rfl, rfl⟩ := hcase
      · exact ⟨by bv_omega, hrp14, hrp⟩
      · have hadd : (s.rp + BitVec.ofNat 32 k).toNat = s.rp.toNat + k := by
          rw [BitVec.toNat_add, BitVec.toNat_ofNat]; omega
        exact ⟨hr, by omega, by omega⟩
      · exact ⟨by decide, hrp14, hrp⟩
    refine ⟨hs, hwf, ?_, ?_, ?_, fun _ => ⟨hv, hdes, hoc, hn, hi', hwp', hcend, hcend14, hq14, hq, hr61⟩⟩ <;>
      rw [hfsm] <;> nofun

/-! ### Every step -/

theorem inv_coreStep {s t : State} (h : Inv s) (ht : coreStep s = .next t) : Inv t := by
  obtain ⟨-, rfl⟩ | ⟨hf, ht⟩ | ⟨hf, ht⟩ | ⟨-, ht⟩ | ⟨hf, ht⟩ := coreStep_cases ht
  · exact h
  · exact inv_encodeHeader hf h ht
  · exact inv_encodePixel hf h ht
  · exact inv_encodeEnd h ht
  · exact inv_decodePixel hf h ht

/-- Settles O43, by the cases of a step: the core's own, by state; outside an operation only the memories count. -/
theorem everyStepKeepsTheInvariant : Obligations.EveryStepKeepsTheInvariant := by
  intro s t h ht
  obtain ⟨es, ht⟩ | ⟨es, rfl⟩ | ⟨es, rd, k, rfl⟩ | ⟨hb, es, a, v, rfl⟩ | ⟨hb, es, off, v, rfl⟩ := step_cases ht
  · exact inv_coreStep (s := { s with inbox := es }) h ht
  · exact inv_resetMachine (s := { s with inbox := es }) h
  · exact h
  · obtain ⟨hs, hd, -⟩ := h
    exact inv_of_not_busy hb (Memory.set_wf hs a.isLt) hd
  · exact inv_regUpdate (s := { s with inbox := es }) hb h off v

end Sys2Proof.Proofs.Invariant
end

section
/-! PROOF. The host's register accesses (O35, O36, O37) and STATUS (O38). -/

namespace Sys2Proof.Proofs.Registers

open Sys2Proof.Machine Sys2Proof.Safety

/-! ### One lemma per outcome of a register access -/

theorem accessLegal_iff {size : Nat} {off : Word} : accessLegal size off = true ↔ size = 4 ∧ off.toNat % 4 = 0 := by
  simp [accessLegal]

section
variable {s : State} {size : Nat} {off v : Word} {es : List HostEvent}

theorem step_regRead_legal (hi : s.inbox = .regRead size off :: es) (ha : size = 4 ∧ off.toNat % 4 = 0) :
    step s = .next { s with inbox := es, readData := some (regValue s off) } := by
  rw [step_host hi]
  exact if_pos (accessLegal_iff.2 ha)

theorem step_regRead_refused (hi : s.inbox = .regRead size off :: es) (ha : ¬ (size = 4 ∧ off.toNat % 4 = 0)) :
    step s = .refused .registerAccess := by
  rw [step_host hi]
  exact if_neg (mt accessLegal_iff.1 ha)

theorem step_regWrite_legal (hi : s.inbox = .regWrite size off v :: es) (ha : size = 4 ∧ off.toNat % 4 = 0) :
    step s = .next (if s.busy then { s with inbox := es } else regUpdate off v { s with inbox := es }) := by
  rw [step_host hi]
  exact if_pos (accessLegal_iff.2 ha)

theorem step_regWrite_refused (hi : s.inbox = .regWrite size off v :: es) (ha : ¬ (size = 4 ∧ off.toNat % 4 = 0)) :
    step s = .refused .registerAccess := by
  rw [step_host hi]
  exact if_neg (mt accessLegal_iff.1 ha)

theorem step_regWrite_busy (hi : s.inbox = .regWrite 4 off v :: es) (ha : off.toNat % 4 = 0) (hb : s.busy = true) :
    step s = .next { s with inbox := es } := by
  rw [step_regWrite_legal hi ⟨rfl, ha⟩, if_pos hb]

theorem step_regWrite_not_busy (hi : s.inbox = .regWrite 4 off v :: es) (ha : off.toNat % 4 = 0)
    (hb : s.busy = false) : step s = .next (regUpdate off v { s with inbox := es }) := by
  rw [step_regWrite_legal hi ⟨rfl, ha⟩, if_neg (Bool.eq_false_iff.1 hb)]

/-- Above the last register an offset is unmapped. -/
theorem ne_of_unmapped (h : 0x24 < off.toNat) {k : Word} (hk : k.toNat ≤ 0x24) : off ≠ k := by
  rintro rfl; omega

/-- An unmapped offset reads 0 (R11). -/
theorem regValue_unmapped (h : 0x24 < off.toNat) : regValue s off = 0 := by
  simp only [regValue, ne_of_unmapped h (k := 0x04#32) (by decide), ne_of_unmapped h (k := 0x08#32) (by decide),
    ne_of_unmapped h (k := 0x0C#32) (by decide), ne_of_unmapped h (k := 0x10#32) (by decide),
    ne_of_unmapped h (k := 0x14#32) (by decide), ne_of_unmapped h (k := 0x18#32) (by decide),
    ne_of_unmapped h (k := 0x1C#32) (by decide), ne_of_unmapped h (k := 0x20#32) (by decide),
    ne_of_unmapped h (k := 0x24#32) (by decide), if_false]

/-- A write to an unmapped offset changes nothing (R11). -/
theorem regUpdate_unmapped (h : 0x24 < off.toNat) : regUpdate off v s = s := by
  simp only [regUpdate, ne_of_unmapped h (k := 0x00#32) (by decide), ne_of_unmapped h (k := 0x0C#32) (by decide),
    ne_of_unmapped h (k := 0x10#32) (by decide), ne_of_unmapped h (k := 0x14#32) (by decide),
    ne_of_unmapped h (k := 0x18#32) (by decide), ne_of_unmapped h (k := 0x1C#32) (by decide),
    ne_of_unmapped h (k := 0x20#32) (by decide), if_false]

/-- A write to STATUS, ERR_CODE, DST_LEN or an unmapped offset changes nothing (R11, R13, R14, R21). -/
theorem regUpdate_readOnly (h : off = 0x04#32 ∨ off = 0x08#32 ∨ off = 0x24#32 ∨ 0x24 < off.toNat) :
    regUpdate off v s = s := by
  obtain rfl | rfl | rfl | h := h
  · rfl
  · rfl
  · rfl
  · exact regUpdate_unmapped h

/-- OP = 00 starts nothing (R12). -/
theorem regUpdate_ctrl_none (h : v.extractLsb' 0 2 = 0b00#2) : regUpdate 0x00#32 v s = s := by
  show ctrlWrite v s = s
  simp [ctrlWrite, h]

/-- OP = 01 is an encode start (R12). -/
theorem regUpdate_ctrl_encode (h : v.extractLsb' 0 2 = 0b01#2) : regUpdate 0x00#32 v s = encodeStart s := if_pos h

/-- An encode start while not BUSY is the step it takes (R12, R81). -/
theorem step_encodeStart (hi : s.inbox = .regWrite 4 0 v :: es) (hb : s.busy = false)
    (hop : v.extractLsb' 0 2 = 0b01#2) : step s = .next (encodeStart { s with inbox := es }) :=
  (step_regWrite_not_busy hi rfl hb).trans (congrArg _ (regUpdate_ctrl_encode hop))

end

/-- Settles O35: a legal read answers `regValue`, which is the map; a legal write reaches `regUpdate` at most. -/
theorem registerMap : Obligations.RegisterMap := by
  refine fun s size off v es => ⟨fun hi => ?_, fun hi => ?_⟩
  · split
    next ha =>
      refine ⟨_, step_regRead_legal hi ha, ?_, ?_, ?_, ?_, ?_, ?_, ?_, ?_, ?_, ?_, regValue_unmapped⟩ <;>
        rintro rfl <;> rfl
    next ha => exact step_regRead_refused hi ha
  · split
    next ha =>
      refine ⟨_, step_regWrite_legal hi ha, fun hro => ?_⟩
      rw [regUpdate_readOnly hro, ite_self]
    next ha => exact step_regWrite_refused hi ha

/-- Settles O36, offset by offset. -/
theorem registerWritesWhileNotBusy : Obligations.RegisterWritesWhileNotBusy := by
  refine fun s off v es hi hb => ⟨?_, ?_, ?_, ?_, ?_, ?_, ?_⟩ <;> rintro rfl <;>
    rw [step_regWrite_not_busy hi (by decide) hb]
  · exact fun h => congrArg _ (regUpdate_ctrl_none h)
  · rfl
  · rfl
  · rw [BitVec.setWidth_eq_extractLsb' (by decide)]; rfl
  · rw [BitVec.setWidth_eq_extractLsb' (by decide)]; rfl
  · rw [BitVec.setWidth_eq_extractLsb' (by decide)]; rfl
  · rfl

/-- Settles O37, by what a legal write does while BUSY and a legal read always. -/
theorem busyIgnoresRegisterWrites : Obligations.BusyIgnoresRegisterWrites :=
  fun _ _ _ _ ha => ⟨fun hi hb => step_regWrite_busy hi ha hb, fun hi => ⟨_, step_regRead_legal hi ⟨rfl, ha⟩, rfl⟩⟩

/-! ### STATUS -/

/-- The value of STATUS in each state of the state machine (R13). -/
def statusOf : Fsm → Word
  | .idle => 0
  | .eHdr => 1
  | .ePix => 1
  | .eEnd => 1
  | .dPix => 1
  | .done => 2
  | .error => 4

theorem statusWord_eq (s : State) : s.statusWord = statusOf s.fsm := by
  unfold State.statusWord State.busy State.doneBit State.errBit
  cases s.fsm <;> decide

theorem doneSignal_eq (s : State) : s.doneSignal = (decide (s.fsm = .done) || decide (s.fsm = .error)) := rfl

/-- Settles O38: STATUS and the done signal are functions of FSM, whose seven states are gone through. -/
theorem statusIsAViewOfTheStateMachine : Obligations.StatusIsAViewOfTheStateMachine := by
  intro s
  rw [statusWord_eq, doneSignal_eq]
  cases s.fsm <;> decide

end Sys2Proof.Proofs.Registers
end

section
/-! PROOF. What an operation holds and what the encoder does not read (O53, O54). -/

namespace Sys2Proof.Proofs.Latches

open Sys2Proof.Machine Sys2Proof.Safety Sys2Proof.Proofs.Registers

/-! ### The core's own step keeps the registers and the latches -/

/-- What the encoder's and the decoder's steps may set lies outside the frame. -/
theorem encodeFrame_update (s : State) (f : Fsm) (p q : Word) (r : BitVec 6) (i rp w : Word) (c : Vector Word 64)
    (d : DstMemory) : EncodeFrame s
      { s with fsm := f, px := p, pxPrev := q, run := r, i := i, rp := rp, wp := w, cache := c, dst := d } :=
  ⟨⟨rfl, rfl, rfl, rfl, rfl, rfl, rfl⟩, ⟨rfl, rfl, rfl, rfl⟩, rfl, rfl, rfl, rfl⟩

/-- No step of the core changes a host register, a latched value, SRC or the model's own fields (R32, R36). -/
theorem coreStep_frame {s t : State} (h : coreStep s = .next t) : EncodeFrame s t := by
  obtain ⟨-, rfl⟩ | ⟨-, ht⟩ | ⟨-, ht⟩ | ⟨-, ht⟩ | ⟨-, ht⟩ := coreStep_cases h
  · exact encodeFrame_update ..
  · rw [encodeHeader_eq] at ht; cases ht; exact encodeFrame_update ..
  · obtain ⟨d, w, r, c, rfl, -⟩ := encodePixel_next ht; exact encodeFrame_update ..
  · obtain ⟨-, rfl⟩ := encodeEnd_next ht; exact encodeFrame_update ..
  · obtain ⟨-, p, c, r, q, rfl, -⟩ := decodePixel_next ht; exact encodeFrame_update ..

/-- The core's own step starts no operation. -/
theorem busy_of_coreStep_busy {s t : State} (h : coreStep s = .next t) (hb : t.busy = true) : s.busy = true := by
  by_contra hs
  rw [coreStep_waiting (Bool.eq_false_iff.2 hs)] at h
  cases h
  exact hs hb

/-- The core's own step enters D_PIX from nowhere else. -/
theorem dPix_of_coreStep_dPix {s t : State} (h : coreStep s = .next t) (ht : t.fsm = .dPix) : s.fsm = .dPix := by
  obtain ⟨-, rfl⟩ | ⟨hf, h⟩ | ⟨hf, h⟩ | ⟨-, h⟩ | ⟨hf, -⟩ := coreStep_cases h
  · exact ht
  · rw [encodeHeader_eq] at h; cases h; cases ht
  · obtain ⟨d, w, r, c, rfl, -⟩ := encodePixel_next h
    rw [encodeAdvance_fsm] at ht
    split at ht
    · cases ht
    · exact ht
  · obtain ⟨-, rfl⟩ := encodeEnd_next h; cases ht
  · exact hf

/-! ### The latches -/

theorem latchInv_of_not_busy {s : State} (hb : s.busy = false) : LatchInv s := fun h => by rw [hb] at h; cases h

theorem latchInv_coreStep {s t : State} (h : LatchInv s) (ht : coreStep s = .next t) : LatchInv t := by
  intro hb
  obtain ⟨hn, hmax, hch, hch34, hcend, hdec⟩ := h (busy_of_coreStep_busy ht hb)
  obtain ⟨⟨-, hw, hh, hchannels, -, hdes, hlen⟩, ⟨hn', hch', hoc', hcend'⟩, -, -⟩ := coreStep_frame ht
  rw [hn', hw, hh, hch', hchannels, hlen, hcend', hoc', hdes]
  exact ⟨hn, hmax, hch, hch34, hcend, fun hf => hdec (dPix_of_coreStep_dPix ht hf)⟩

theorem latchInv_encodeAccept {s : State} (hv : headerFieldsValid s.width s.height s.channels s.colorspace = true) :
    LatchInv (encodeAccept s) := by
  obtain ⟨-, -, hch, -, hmax⟩ := headerFieldsValid_iff.1 hv
  have hn : (encodeAccept s).n.toNat = s.width.toNat * s.height.toNat := pixelCount_toNat hmax
  exact fun _ => ⟨hn, hn ▸ hmax, rfl, hch, endOfChunks_add, nofun⟩

theorem latchInv_decodeAccept {s : State} {w h : Word} {ch cs : Byte} (hv : headerFieldsValid w h ch cs = true)
    (hl : 22 ≤ s.srcLen.toNat) : LatchInv (decodeAccept w h ch cs s) := by
  obtain ⟨-, -, hch, -, hmax⟩ := headerFieldsValid_iff.1 hv
  have hn : (decodeAccept w h ch cs s).n.toNat = w.toNat * h.toNat := pixelCount_toNat hmax
  have hc : (decodeAccept w h ch cs s).cend.toNat + 8 = s.srcLen.toNat :=
    endOfChunks_add (Nat.le_trans (by decide) hl)
  exact fun _ => ⟨hn, hn ▸ hmax, rfl, hch, fun _ => hc, fun _ => ⟨by omega, rfl⟩⟩

theorem latchInv_regUpdate {s : State} (hb : s.busy = false) (off v : Word) : LatchInv (regUpdate off v s) := by
  obtain ⟨w, h, c, cs, d, l, heq⟩ | ⟨c, heq⟩ | ⟨hv, -, heq⟩ | ⟨w, h, c, cs, -, hv, hl, heq⟩ := regUpdate_cases off v s
  · rw [heq]; exact latchInv_of_not_busy hb
  · rw [heq]; exact latchInv_of_not_busy rfl
  · rw [heq]; exact latchInv_encodeAccept hv
  · rw [heq]; exact latchInv_decodeAccept hv hl

theorem latchInv_step {s t : State} (h : LatchInv s) (ht : step s = .next t) : LatchInv t := by
  obtain ⟨es, ht⟩ | ⟨es, rfl⟩ | ⟨es, rd, k, rfl⟩ | ⟨hb, es, a, v, rfl⟩ | ⟨hb, es, off, v, rfl⟩ := step_cases ht
  · exact latchInv_coreStep (s := { s with inbox := es }) h ht
  · exact latchInv_of_not_busy rfl
  · exact h
  · exact latchInv_of_not_busy hb
  · exact latchInv_regUpdate (s := { s with inbox := es }) hb off v

theorem sameLatches_step {s t : State} (hs : s.busy = true) (hb : t.busy = true) (ht : step s = .next t) :
    SameLatches s t := by
  obtain ⟨es, ht⟩ | ⟨es, rfl⟩ | ⟨es, rd, k, rfl⟩ | ⟨hs', -⟩ | ⟨hs', -⟩ := step_cases ht
  · obtain ⟨-, hl, -, -⟩ := coreStep_frame ht
    exact hl
  · cases hb
  · exact ⟨rfl, rfl, rfl, rfl⟩
  · rw [hs] at hs'; cases hs'
  · rw [hs] at hs'; cases hs'

/-- Settles O53, by the cases of a step: a core step keeps registers and latches, an accepted start computes them. -/
theorem latchesHoldForTheWholeOperation : Obligations.LatchesHoldForTheWholeOperation :=
  fun _ _ ht => ⟨fun h => latchInv_step h ht, fun hs hb => sameLatches_step hs hb ht⟩

/-! ### DESIRED_CHANNELS and the encoder -/

/-- The state with another byte in DESIRED_CHANNELS. -/
def withDesired (d : Byte) (s : State) : State := { s with desiredChannels := d }

/-- A result with its next state, if it has one, changed by `φ`. -/
def mapNext (φ : State → State) (o : Result) : Result := andThen o (fun s => .next (φ s))

theorem andThen_mapNext {φ : State → State} {o : Result} {f : State → Result}
    (h : ∀ u, f (φ u) = mapNext φ (f u)) : andThen (mapNext φ o) f = mapNext φ (andThen o f) := by
  cases o with
  | next u => exact h u
  | fault r => rfl
  | refused r => rfl

theorem ite_mapNext {φ : State → State} {p : Prop} [Decidable p] {a b a' b' : Result}
    (ha : a' = mapNext φ a) (hb : b' = mapNext φ b) :
    (if p then a' else b') = mapNext φ (if p then a else b) := by
  split
  · exact ha
  · exact hb

section
variable (d : Byte) (s : State)

theorem writeDst_withDesired (a : Nat) (bs : List Byte) :
    writeDst a bs (withDesired d s) = mapNext (withDesired d) (writeDst a bs s) := ite_mapNext rfl rfl

theorem putBytes_withDesired (bs : List Byte) :
    putBytes bs (withDesired d s) = mapNext (withDesired d) (putBytes bs s) := by
  unfold putBytes
  rw [show (withDesired d s).wp = s.wp from rfl, writeDst_withDesired]
  exact andThen_mapNext fun _ => rfl

theorem emitRun_withDesired : emitRun (withDesired d s) = mapNext (withDesired d) (emitRun s) := by
  unfold emitRun emitChunk
  rw [show (withDesired d s).run = s.run from rfl, putBytes_withDesired]
  exact andThen_mapNext fun _ => rfl

theorem flushRun_withDesired : flushRun (withDesired d s) = mapNext (withDesired d) (flushRun s) :=
  ite_mapNext rfl (emitRun_withDesired d s)

theorem repeatPixel_withDesired : repeatPixel (withDesired d s) = mapNext (withDesired d) (repeatPixel s) :=
  ite_mapNext (emitRun_withDesired d { s with run := s.run + 1 }) rfl

theorem emitChanged_withDesired (p : Word) :
    emitChanged p (withDesired d s) = mapNext (withDesired d) (emitChanged p s) := by
  rw [emitChanged_eq, emitChanged_eq]
  exact putBytes_withDesired d (s.cacheWrite (pixelHash p) p) _

theorem encodeChoose_withDesired : encodeChoose (withDesired d s) = mapNext (withDesired d) (encodeChoose s) := by
  refine ite_mapNext (repeatPixel_withDesired d s) ?_
  rw [flushRun_withDesired]
  exact andThen_mapNext fun u => emitChanged_withDesired d u s.px

theorem encodePixel_withDesired : encodePixel (withDesired d s) = mapNext (withDesired d) (encodePixel s) := by
  refine ite_mapNext ?_ rfl
  rw [show takeUnit (withDesired d s) = withDesired d (takeUnit s) from rfl, encodeChoose_withDesired]
  exact andThen_mapNext fun _ => rfl

theorem encodeHeader_withDesired : encodeHeader (withDesired d s) = mapNext (withDesired d) (encodeHeader s) := by
  rw [encodeHeader_eq, encodeHeader_eq]
  rfl

theorem encodeEnd_withDesired : encodeEnd (withDesired d s) = mapNext (withDesired d) (encodeEnd s) := by
  unfold encodeEnd
  rw [putBytes_withDesired]
  exact andThen_mapNext fun _ => rfl

/-- In its three states the encoder's step does not see DESIRED_CHANNELS. -/
theorem coreStep_withDesired (hf : s.fsm = .eHdr ∨ s.fsm = .ePix ∨ s.fsm = .eEnd) :
    coreStep (withDesired d s) = mapNext (withDesired d) (coreStep s) := by
  obtain hf | hf | hf := hf
  · rw [coreStep_eHdr hf, coreStep_eHdr (s := withDesired d s) hf]; exact encodeHeader_withDesired d s
  · rw [coreStep_ePix hf, coreStep_ePix (s := withDesired d s) hf]; exact encodePixel_withDesired d s
  · rw [coreStep_eEnd hf, coreStep_eEnd (s := withDesired d s) hf]; exact encodeEnd_withDesired d s

/-- None of the checks of an encode start looks at DESIRED_CHANNELS, nor does its accepting end. -/
theorem encodeStart_withDesired : encodeStart (withDesired d s) = withDesired d (encodeStart s) := by
  simp only [encodeStart, apply_ite (withDesired d)]
  rfl

end

theorem step_withDesired (d : Byte) {s : State} (he : EncoderTurn s) :
    step (withDesired d s) = mapNext (withDesired d) (step s) := by
  obtain ⟨hb, v, es, hi, hop⟩ | ⟨hi, hf⟩ := he
  · rw [step_encodeStart hi hb hop, step_encodeStart (s := withDesired d s) hi hb hop]
    exact congrArg _ (encodeStart_withDesired d { s with inbox := es })
  · rw [step_core hi, step_core (s := withDesired d s) hi]
    exact coreStep_withDesired d s hf

/-- Settles O54: every operation of the encoder commutes with a change of DESIRED_CHANNELS. -/
theorem encoderDoesNotReadDesiredChannels : Obligations.EncoderDoesNotReadDesiredChannels := by
  intro s t d he ht
  have h := step_withDesired d he
  rw [ht] at h
  exact h

end Sys2Proof.Proofs.Latches
end

section
/-! PROOF. What a step of the core answers where there is room, as an equation: the encoder's choice for a pixel, the end
step, the branches of the decoder's step. -/

namespace Sys2Proof.Machine

open Sys2Proof.Safety

/-! ### Bytes and words -/

/-- Appending is adding: the two parts of the result share no bit. -/
theorem toNat_append_eq_add {k n : Nat} (x : BitVec k) (y : BitVec n) :
    (x ++ y).toNat = x.toNat * 2 ^ n + y.toNat := by
  rw [BitVec.toNat_append, ← Nat.shiftLeft_add_eq_or_of_lt y.isLt, Nat.shiftLeft_eq]

/-- A four-byte read as a number (R6, R36). -/
theorem be32_toNat (b0 b1 b2 b3 : Byte) :
    (be32 b0 b1 b2 b3).toNat = b0.toNat * 2 ^ 24 + b1.toNat * 2 ^ 16 + b2.toNat * 2 ^ 8 + b3.toNat := by
  simp only [be32, toNat_append_eq_add]
  omega

/-- One write of two lists is a write of the first, then of the second after it. -/
theorem DstMemory.setBytes_append (d : DstMemory) (a : Nat) (bs cs : List Byte) :
    d.setBytes a (bs ++ cs) = (d.setBytes a bs).setBytes (a + bs.length) cs := by
  induction bs generalizing d a with
  | nil => rfl
  | cons b bs ih =>
    rw [List.cons_append, DstMemory.setBytes, ih, DstMemory.setBytes, List.length_cons, Nat.add_right_comm, Nat.add_assoc]

/-- Memories that agree below the end of the bytes read give the same bytes. -/
theorem Memory.getBytes_congr {m m' : Memory} {a n : Nat} (h : ∀ x, x < a + n → m.get x = m'.get x) :
    m.getBytes a n = m'.getBytes a n := by
  induction n generalizing a with
  | zero => rfl
  | succ n ih => rw [Memory.getBytes, Memory.getBytes, h a (by omega), ih fun x hx => h x (by omega)]

/-- A pixel unit depends on its own bytes alone (R72). -/
theorem assemble_congr {m m' : Memory} {a : Nat} {ch : Byte} (h : ∀ x, x < a + unitBytes ch → m.get x = m'.get x) :
    assemble m a ch = assemble m' a ch := by
  unfold unitBytes at h
  unfold assemble
  split at h
  next h4 => rw [if_pos h4, if_pos h4, h a, h (a + 1), h (a + 2), h (a + 3)] <;> omega
  next h4 => rw [if_neg h4, if_neg h4, h a, h (a + 1), h (a + 2)] <;> omega

theorem unitBytes_le_four (c : Byte) : unitBytes c ≤ 4 := by
  unfold unitBytes; split <;> decide

/-- A count of 3 or 4 channels is the number of bytes of a pixel (R72, R73). -/
theorem unitBytes_of_channels {c : Byte} (h : c = 3#8 ∨ c = 4#8) :
    unitBytes c = c.toNat ∧ c.setWidth 32 = BitVec.ofNat 32 (unitBytes c) := by
  obtain rfl | rfl := h <;> decide

/-! ### The encoder's choice for a pixel -/

/-- R83, R84: the run that the pixel in `px` extends is written now: it reaches 62, or this is the last pixel. -/
abbrev RunCloses (s : State) : Prop := s.run + 1 = 62#6 ∨ lastPixel s = true

/-- R83 to R90: the bytes E_PIX writes for the pixel in `px`. -/
def chosenBytes (s : State) : List Byte :=
  if s.px = s.pxPrev then
    if RunCloses s then encode (.run (s.run + 1).toNat) else []
  else (if s.run = 0 then [] else encode (.run s.run.toNat)) ++ encode (changedChunk s.px s)

/-- R83, R84: the run that stays open after the pixel in `px`. -/
def chosenRun (s : State) : BitVec 6 := if s.px = s.pxPrev ∧ ¬ RunCloses s then s.run + 1 else 0

/-- R83, R86: the cache after the pixel in `px`, which a changed pixel has entered. -/
def chosenCache (s : State) : Vector Word 64 :=
  if s.px = s.pxPrev then s.cache else (s.cacheWrite (pixelHash s.px) s.px).cache

/-- The state after the choice for the pixel in `px`. -/
def chosen (s : State) : State :=
  { s with
    dst := s.dst.setBytes s.wp.toNat (chosenBytes s), wp := s.wp + BitVec.ofNat 32 (chosenBytes s).length,
    run := chosenRun s, cache := chosenCache s }

theorem length_encode_le_five (i : Instr) : (encode i).length ≤ 5 := encode_length i ▸ instr_length_le_five i

theorem length_encode_run (n : Nat) : (encode (.run n)).length = 1 := rfl

/-- One byte of RUN and the five of RGBA at most. -/
theorem length_chosenBytes_le_six (s : State) : (chosenBytes s).length ≤ 6 := by
  unfold chosenBytes
  split_ifs
  · exact (length_encode_run _).trans_le (by decide)
  · exact Nat.zero_le _
  · exact (length_encode_le_five _).trans (by decide)
  · rw [List.length_append, length_encode_run]
    exact Nat.add_le_add_left (length_encode_le_five _) 1

/-- A pixel equal to the one before, where there is room for the RUN byte (R83, R84). -/
theorem repeatPixel_room {s : State} (hp : s.px = s.pxPrev) (h : s.wp.toNat + 1 ≤ Config.addressSpace) :
    repeatPixel s = .next (chosen s) := by
  by_cases hc : RunCloses s
  · have hb : chosenBytes s = encode (.run (s.run + 1).toNat) := (if_pos hp).trans (if_pos hc)
    have hr : chosenRun s = 0 := if_neg fun h => h.2 hc
    have hm : chosenCache s = s.cache := if_pos hp
    rw [chosen, hb, hr, hm]
    exact (if_pos hc).trans (emitRun_room (s := { s with run := s.run + 1 }) h)
  · have hb : chosenBytes s = [] := (if_pos hp).trans (if_neg hc)
    have hr : chosenRun s = s.run + 1 := if_pos ⟨hp, hc⟩
    have hm : chosenCache s = s.cache := if_pos hp
    rw [chosen, hb, hr, hm]
    exact (if_neg hc).trans (by simp [DstMemory.setBytes])

/-- A changed pixel, where there is room for the longest chunk (R83, R86). -/
theorem emitChanged_room {p : Word} {s : State} (h : s.wp.toNat + 5 ≤ Config.addressSpace) :
    emitChanged p s = .next { s with
      dst := s.dst.setBytes s.wp.toNat (encode (changedChunk p s)),
      wp := s.wp + BitVec.ofNat 32 (encode (changedChunk p s)).length, cache := (s.cacheWrite (pixelHash p) p).cache } := by
  rw [emitChanged_eq, emitChunk_room]
  · rfl
  · exact (Nat.add_le_add_left (length_encode_le_five _) _).trans h

/-- All that the choice for a pixel answers, where there is room for six bytes. -/
theorem encodeChoose_room {s : State} (h : s.wp.toNat + 6 ≤ Config.addressSpace) :
    encodeChoose s = .next (chosen s) := by
  by_cases hp : s.px = s.pxPrev
  · exact (if_pos hp).trans (repeatPixel_room hp (by omega))
  · have hr : chosenRun s = 0 := if_neg fun h => hp h.1
    have hm : chosenCache s = (s.cacheWrite (pixelHash s.px) s.px).cache := if_neg hp
    rw [encodeChoose, if_neg hp, chosen, hr, hm]
    by_cases h0 : s.run = 0
    · have hb : chosenBytes s = encode (changedChunk s.px s) := by
        rw [chosenBytes, if_neg hp, if_pos h0, List.nil_append]
      rw [flushRun, if_pos h0, andThen_next, emitChanged_room (by omega), hb, ← h0]
    · have hb : chosenBytes s = encode (.run s.run.toNat) ++ encode (changedChunk s.px s) := by
        rw [chosenBytes, if_neg hp, if_neg h0]
      have hw : (s.wp + 1).toNat = s.wp.toNat + 1 := by
        simp only [Config.addressSpace] at h; bv_omega
      rw [flushRun, if_neg h0, emitRun_room (by omega), andThen_next, emitChanged_room (by rw [hw]; omega), hb,
        DstMemory.setBytes_append, List.length_append, length_encode_run, BitVec.ofNat_add, ← BitVec.add_assoc, hw]
      rfl

/-- The step in E_PIX, where the unit lies inside SRC and DST has room for six bytes (R83). -/
theorem encodePixel_room {s : State} (hr : s.rp.toNat + unitBytes s.ch ≤ Config.addressSpace)
    (hw : s.wp.toNat + 6 ≤ Config.addressSpace) : encodePixel s = .next (encodeAdvance (chosen (takeUnit s))) := by
  rw [encodePixel, if_pos hr, encodeChoose_room (s := takeUnit s) hw, andThen_next]

/-- The step in E_END, where DST has room for the end marker (R91). -/
theorem encodeEnd_room {s : State} (h : s.wp.toNat + 8 ≤ Config.addressSpace) :
    encodeEnd s = .next { s with
      dst := s.dst.setBytes s.wp.toNat Config.endMarker, wp := s.wp + 8, fsm := .done } := by
  rw [encodeEnd, putBytes_room (bs := Config.endMarker) h]
  rfl

/-! ### The branches of the decoder's step -/

theorem decodePixel_continue {s : State} (h : s.run ≠ 0) : decodePixel s = continueRun s := if_pos h

theorem decodePixel_fetch {s : State} (h : s.run = 0) (hrp : s.rp.toNat < s.cend.toNat) : decodePixel s = runChunk s :=
  (if_neg (not_not.2 h)).trans (if_pos hrp)

theorem decodePixel_exhausted {s : State} (h : s.run = 0) (hrp : ¬ s.rp.toNat < s.cend.toNat) :
    decodePixel s = retirePixel s := (if_neg (not_not.2 h)).trans (if_neg hrp)

theorem runChunk_ok {s : State} {i : Instr} (h : fetchChunk s = .ok i) : runChunk s = exec i s := by
  simp only [runChunk, h]

/-- A step that runs a chunk and answers a next state has fetched one. -/
theorem runChunk_next {s t : State} (h : runChunk s = .next t) : ∃ i, fetchChunk s = .ok i ∧ exec i s = .next t := by
  cases hi : fetchChunk s with
  | ok i => exact ⟨i, rfl, (runChunk_ok hi).symm.trans h⟩
  | error f => simp only [runChunk, hi] at h; cases h

/-- Room for a pixel depends on `wp` and OC alone. -/
theorem emitRoom_of_same_wp_oc {s t : State} (h : EmitRoom t) (hw : t.wp = s.wp) (ho : t.oc = s.oc) : EmitRoom s := by
  rw [emitRoom_iff] at h ⊢
  rwa [← hw, ← ho]

/-- Without room for the pixel a chunk that writes the cache faults. -/
theorem storingChunk_full {len : Nat} {p : Word} {s : State} (h : ¬ EmitRoom s) :
    storingChunk len p s = .fault .dstAddress :=
  retirePixel_full fun room => h (emitRoom_of_same_wp_oc room rfl rfl)

end Sys2Proof.Machine
end

section
/-! PROOF. The pointers of a running operation stay inside SRC and DST, by the invariant (R44, R45). -/

namespace Sys2Proof.Proofs.Bounds

open Sys2Proof.Machine Sys2Proof.Safety

/-- OC is 3 or 4 throughout a decode (R32). -/
theorem oc_of_decodeProgress {s : State} (h : DecodeProgress s) : s.oc = 3#8 ∨ s.oc = 4#8 := by
  obtain ⟨hv, -, hoc, -⟩ := h
  obtain ⟨-, -, hch, -⟩ := headerFieldsValid_iff.1 hv
  exact hoc ▸ outputChannels_three_or_four hch _

/-- N is below the limit throughout a decode (R54). -/
theorem n_lt_of_decodeProgress {s : State} (h : DecodeProgress s) : s.n.toNat < 400000000 := by
  obtain ⟨hv, -, -, hn, -⟩ := h
  obtain ⟨-, -, -, -, hmax⟩ := headerFieldsValid_iff.1 hv
  exact hn ▸ hmax

theorem toNat_le_four_of_channels {c : Byte} (h : c = 3#8 ∨ c = 4#8) : c.toNat ≤ 4 := by
  obtain rfl | rfl := h <;> decide

theorem busy_of_fsm {s : State} {f : Fsm} (hf : s.fsm = f) (hb : f.busy = true) : s.busy = true := by
  rw [State.busy, hf, hb]

/-- The output of an encode stays far below the size of DST (R92). -/
theorem wp_le_of_encode {s : State} (hl : EncodeLatched s) (hp : EncodeProgress s) (hi : s.i.toNat ≤ s.n.toNat) :
    s.wp.toNat ≤ 14 + 400000000 * 5 := by
  obtain ⟨-, -, -, -, -, hbound⟩ := hp
  have hn := n_lt_of_encodeLatched hl
  have hc := toNat_le_four_of_channels (ch_of_encodeLatched hl)
  have hmul : s.i.toNat * (s.ch.toNat + 1) ≤ 400000000 * 5 := Nat.mul_le_mul (by omega) (by omega)
  omega

/-- So does the output of a decode (R105). -/
theorem wp_le_of_decode {s : State} (h : DecodeProgress s) : s.wp.toNat ≤ 400000000 * 4 := by
  have hn := n_lt_of_decodeProgress h
  have hc := toNat_le_four_of_channels (oc_of_decodeProgress h)
  obtain ⟨-, -, -, -, hi, hwp, -⟩ := h
  rw [hwp]
  exact Nat.mul_le_mul (by omega) hc

/-- While an operation runs, `wp` is at most the bytes of a header and of the largest image. -/
theorem wp_le_of_inv {s : State} (h : Inv s) (hb : s.busy = true) : s.wp.toNat ≤ 14 + 400000000 * 5 := by
  obtain ⟨-, -, hhdr, hpix, hend, hdec⟩ := h
  cases hf : s.fsm with
  | eHdr =>
    obtain ⟨-, -, -, hwp, -⟩ := hhdr hf
    rw [hwp]; decide
  | ePix =>
    obtain ⟨hl, hp, hi⟩ := hpix hf
    exact wp_le_of_encode hl hp hi.le
  | eEnd =>
    obtain ⟨hl, hp, hi, -⟩ := hend hf
    exact wp_le_of_encode hl hp (congrArg BitVec.toNat hi).le
  | dPix => exact (wp_le_of_decode (hdec hf)).trans (by decide)
  | _ => rw [State.busy, hf] at hb; cases hb

/-- No step of the core, which writes 14 bytes at most, comes near the end of DST. -/
theorem room_of_inv {s : State} (h : Inv s) (hb : s.busy = true) {k : Nat} (hk : k ≤ 14) :
    s.wp.toNat + k < Config.addressSpace := by
  have hw := wp_le_of_inv h hb
  simp only [Config.addressSpace]
  omega

/-- The unit that E_PIX reads lies below SRC_LEN (R44). -/
theorem unit_below_srcLen {s : State} (hl : EncodeLatched s) (hp : EncodeProgress s) (hi : s.i.toNat < s.n.toNat) :
    s.rp.toNat + unitBytes s.ch ≤ s.srcLen.toNat := by
  rw [(unitBytes_of_channels (ch_of_encodeLatched hl)).1]
  obtain ⟨hrp, -⟩ := hp
  obtain ⟨-, -, -, hlen⟩ := hl
  calc s.rp.toNat + s.ch.toNat = (s.i.toNat + 1) * s.ch.toNat := by rw [hrp, Nat.succ_mul]
    _ ≤ s.n.toNat * s.ch.toNat := Nat.mul_le_mul_right _ hi
    _ = s.srcLen.toNat := hlen.symm

/-- The step in E_PIX, from the invariant: its reads and its writes have room. -/
theorem encodePixel_of_inv {s : State} (h : Inv s) (hf : s.fsm = .ePix) :
    encodePixel s = .next (encodeAdvance (chosen (takeUnit s))) := by
  have room := room_of_inv h (busy_of_fsm hf rfl) (k := 6) (by decide)
  obtain ⟨-, -, -, hpix, -⟩ := h
  obtain ⟨hl, hp, hi⟩ := hpix hf
  exact encodePixel_room ((unit_below_srcLen hl hp hi).trans s.srcLen.isLt.le) room.le

end Sys2Proof.Proofs.Bounds
end

section
/-! PROOF. The two memories: what the core writes and reads of them, what the host does (O45, O46, O47, O18, O30, O39). -/

namespace Sys2Proof.Proofs.Memories

open Sys2Proof.Machine Sys2Proof.Safety Sys2Proof.Proofs.Latches Sys2Proof.Proofs.Bounds

/-- Settles O45, by the frame of a core step. -/
theorem coreStepsKeepSrcAndRegisters : Obligations.CoreStepsKeepSrcAndRegisters := by
  intro s t hi h
  rw [step_core hi] at h
  obtain ⟨hreg, hlatch, hsrc, hhost⟩ := coreStep_frame h
  exact ⟨hsrc, hreg, hlatch, hhost⟩

/-! ### DST is written at `wp`, which moves past the bytes written -/

/-- From `s` to `t` the bytes `bs` have been written at `wp`, with an address of DST left after them. -/
def Appended (bs : List Byte) (s t : State) : Prop :=
  s.wp.toNat + bs.length < Config.addressSpace ∧ t.dst = s.dst.setBytes s.wp.toNat bs ∧
    t.wp = s.wp + BitVec.ofNat 32 bs.length

/-- Bytes appended at `wp` touch no other address. -/
theorem Appended.written_in_order {bs : List Byte} {s t : State} (h : Appended bs s t) (hd : s.dst.wf = true) :
    s.wp.toNat ≤ t.wp.toNat ∧ ∀ a, a < s.wp.toNat ∨ t.wp.toNat ≤ a → t.dst.get a = s.dst.get a := by
  obtain ⟨room, hdst, hwp⟩ := h
  have hwp : t.wp.toNat = s.wp.toNat + bs.length := by
    simp only [Config.addressSpace] at room
    rw [hwp, BitVec.toNat_add, BitVec.toNat_ofNat]
    omega
  refine ⟨by omega, fun a ha => ?_⟩
  rw [hdst, DstMemory.get_setBytes hd room.le, if_neg (by omega)]

theorem appended_nil (s : State) : Appended [] s s := ⟨s.wp.isLt, rfl, (BitVec.add_zero _).symm⟩

theorem appended_encodeHeader {s t : State} (h : Inv s) (hf : s.fsm = .eHdr) (ht : encodeHeader s = .next t) :
    ∃ bs, Appended bs s t := by
  have room := room_of_inv h (busy_of_fsm hf rfl) (k := 14) le_rfl
  obtain ⟨-, -, hhdr, -⟩ := h
  obtain ⟨-, -, -, hwp, -⟩ := hhdr hf
  rw [encodeHeader_eq] at ht
  cases ht
  refine ⟨headerOf s.width s.height s.channels s.colorspace, room, ?_⟩
  rw [hwp]
  exact ⟨rfl, rfl⟩

theorem appended_encodePixel {s t : State} (h : Inv s) (hf : s.fsm = .ePix) (ht : encodePixel s = .next t) :
    ∃ bs, Appended bs s t := by
  rw [encodePixel_of_inv h hf] at ht
  cases ht
  have hlen := (length_chosenBytes_le_six (takeUnit s)).trans (show 6 ≤ 14 by decide)
  exact ⟨chosenBytes (takeUnit s), room_of_inv h (busy_of_fsm hf rfl) hlen, rfl, rfl⟩

theorem appended_encodeEnd {s t : State} (h : Inv s) (hf : s.fsm = .eEnd) (ht : encodeEnd s = .next t) :
    ∃ bs, Appended bs s t := by
  obtain ⟨-, rfl⟩ := encodeEnd_next ht
  exact ⟨Config.endMarker, room_of_inv h (busy_of_fsm hf rfl) (by decide), rfl, rfl⟩

theorem appended_decodePixel {s t : State} (h : Inv s) (hf : s.fsm = .dPix) (ht : decodePixel s = .next t) :
    ∃ bs, Appended bs s t := by
  have room := room_of_inv h (busy_of_fsm hf rfl) ((unitBytes_le_four s.oc).trans (by decide))
  obtain ⟨-, -, -, -, -, hdec⟩ := h
  obtain ⟨-, hoc⟩ := unitBytes_of_channels (oc_of_decodeProgress (hdec hf))
  obtain ⟨-, p, c, r, q, rfl, -⟩ := decodePixel_next ht
  refine ⟨pixelBytes p s.oc, ?_, rfl, ?_⟩ <;> rw [pixelBytes_length]
  · exact room
  · rw [← hoc]; rfl

/-- Every step of the core appends its bytes at `wp` (R46). -/
theorem appended_coreStep {s t : State} (h : Inv s) (ht : coreStep s = .next t) : ∃ bs, Appended bs s t := by
  obtain ⟨-, rfl⟩ | ⟨hf, ht⟩ | ⟨hf, ht⟩ | ⟨hf, ht⟩ | ⟨hf, ht⟩ := coreStep_cases ht
  · exact ⟨[], appended_nil _⟩
  · exact appended_encodeHeader h hf ht
  · exact appended_encodePixel h hf ht
  · exact appended_encodeEnd h hf ht
  · exact appended_decodePixel h hf ht

/-- Settles O46: each core step appends bytes at `wp`, which the invariant keeps from wrapping. -/
theorem dstIsWrittenInOrder : Obligations.DstIsWrittenInOrder := by
  intro s t h hi ht
  rw [step_core hi] at ht
  obtain ⟨bs, happ⟩ := appended_coreStep h ht
  obtain ⟨-, hd, -⟩ := h
  exact happ.written_in_order hd

/-! ### SRC is read below SRC_LEN alone -/

/-- The state with another memory as SRC. -/
def withSrc (m : Memory) (s : State) : State := { s with src := m }

/-- A retired pixel does not see SRC. -/
theorem retirePixel_withSrc (m : Memory) {s t : State} (h : retirePixel s = .next t) :
    retirePixel (withSrc m s) = .next (withSrc m t) := by
  obtain ⟨room, rfl⟩ := retirePixel_next h
  exact retirePixel_room (s := withSrc m s) room

/-- Nor does a chunk that has been fetched. -/
theorem exec_withSrc (m : Memory) {i : Instr} {s t : State} (h : exec i s = .next t) :
    exec i (withSrc m s) = .next (withSrc m t) := by
  obtain ⟨room, -⟩ := exec_next h
  rw [exec_room room] at h
  cases h
  rw [exec_room (s := withSrc m s) room]
  cases i <;> rfl

section
variable {m : Memory} {s t : State} (hm : ∀ a, a < s.srcLen.toNat → m.get a = s.src.get a)
include hm

/-- A chunk that starts below CEND ends below SRC_LEN, so a fetch sees no byte above (R45). -/
theorem fetchChunk_withSrc (hp : DecodeProgress s) (hrp : s.rp.toNat < s.cend.toNat) :
    fetchChunk (withSrc m s) = fetchChunk s := by
  obtain ⟨-, -, -, -, -, -, hcend, -⟩ := hp
  have hfirst : m.get s.rp.toNat = s.src.get s.rp.toNat := hm _ (by omega)
  have hlen : (classOf (s.src.get s.rp.toNat)).length ≤ 5 := by cases classOf (s.src.get s.rp.toNat) <;> decide
  have hbytes : chunkBytes (withSrc m s) = chunkBytes s := by
    show m.getBytes s.rp.toNat (min (classOf (m.get s.rp.toNat)).length (Config.addressSpace - s.rp.toNat)) = _
    rw [hfirst]
    exact Memory.getBytes_congr fun x hx => hm x (by omega)
  rw [fetchChunk, fetchChunk, hbytes]

theorem takeUnit_withSrc (hr : s.rp.toNat + unitBytes s.ch ≤ s.srcLen.toNat) :
    takeUnit (withSrc m s) = withSrc m (takeUnit s) := by
  have : assemble m s.rp.toNat s.ch = assemble s.src s.rp.toNat s.ch :=
    assemble_congr fun x hx => hm x (by omega)
  show { withSrc m s with px := assemble m s.rp.toNat s.ch, rp := s.rp + s.ch.setWidth 32 } = _
  rw [this]
  rfl

theorem decodePixel_withSrc (hp : DecodeProgress s) (h : decodePixel s = .next t) :
    decodePixel (withSrc m s) = .next (withSrc m t) := by
  by_cases hr : s.run = 0
  · by_cases hrp : s.rp.toNat < s.cend.toNat
    · rw [decodePixel_fetch hr hrp] at h
      obtain ⟨i, hi, hx⟩ := runChunk_next h
      rw [decodePixel_fetch (s := withSrc m s) hr hrp, runChunk_ok ((fetchChunk_withSrc hm hp hrp).trans hi)]
      exact exec_withSrc m hx
    · rw [decodePixel_exhausted hr hrp] at h
      rw [decodePixel_exhausted (s := withSrc m s) hr hrp]
      exact retirePixel_withSrc m h
  · rw [decodePixel_continue hr] at h
    rw [decodePixel_continue (s := withSrc m s) hr]
    exact retirePixel_withSrc m h

theorem encodePixel_withSrc (hinv : Inv s) (hf : s.fsm = .ePix) (h : encodePixel s = .next t) :
    encodePixel (withSrc m s) = .next (withSrc m t) := by
  rw [encodePixel_of_inv hinv hf] at h
  cases h
  have room := room_of_inv hinv (busy_of_fsm hf rfl) (k := 6) (by decide)
  obtain ⟨-, -, -, hpix, -⟩ := hinv
  obtain ⟨hl, hp, hi⟩ := hpix hf
  have hunit := unit_below_srcLen hl hp hi
  rw [encodePixel_room (s := withSrc m s) (hunit.trans s.srcLen.isLt.le) room.le, takeUnit_withSrc hm hunit]
  rfl

theorem coreStep_withSrc (hinv : Inv s) (h : coreStep s = .next t) :
    coreStep (withSrc m s) = .next (withSrc m t) := by
  obtain ⟨hb, rfl⟩ | ⟨hf, h⟩ | ⟨hf, h⟩ | ⟨hf, h⟩ | ⟨hf, h⟩ := coreStep_cases h
  · exact coreStep_waiting (s := withSrc m _) hb
  · rw [encodeHeader_eq] at h
    cases h
    rw [coreStep_eHdr (s := withSrc m s) hf, encodeHeader_eq]
    rfl
  · rw [coreStep_ePix (s := withSrc m s) hf]
    exact encodePixel_withSrc hm hinv hf h
  · obtain ⟨room, rfl⟩ := encodeEnd_next h
    rw [coreStep_eEnd (s := withSrc m s) hf]
    exact encodeEnd_room (s := withSrc m s) room
  · rw [coreStep_dPix (s := withSrc m s) hf]
    obtain ⟨-, -, -, -, -, hdec⟩ := hinv
    exact decodePixel_withSrc hm (hdec hf) h

end

/-- Settles O47: the two reads, of a pixel unit and of a chunk, end below SRC_LEN; nothing else sees SRC. -/
theorem coreReadsSrcBelowItsLength : Obligations.CoreReadsSrcBelowItsLength := by
  intro s t m hinv hi hm h
  rw [step_core hi] at h
  rw [step_core (s := { s with src := m }) hi]
  exact coreStep_withSrc hm hinv h

/-! ### No room in DST, four bytes of SRC, the host's accesses -/

/-- Settles O18, by class: whatever a chunk does first, it ends by retiring its pixel. -/
theorem chunkWithoutRoomFaults : Obligations.ChunkWithoutRoomFaults := by
  intro i s h
  cases i with
  | rgb r g b => exact storingChunk_full h
  | rgba r g b a => exact storingChunk_full h
  | index k => exact retirePixel_full fun room => h (emitRoom_of_same_wp_oc room rfl rfl)
  | diff dr dg db => exact storingChunk_full h
  | luma dg drg dbg => exact storingChunk_full h
  | run n => exact storingChunk_full fun room => h (emitRoom_of_same_wp_oc room rfl rfl)

/-- Settles O30: BE32 appends four bytes, and appending is adding. -/
theorem fourByteReadIsBigEndian : Obligations.FourByteReadIsBigEndian := fun _ _ => be32_toNat _ _ _ _

section
variable {s : State} {a : Word} {v : Byte} {es : List HostEvent}

theorem step_srcWrite_not_busy (hi : s.inbox = .srcWrite a v :: es) (hb : s.busy = false) :
    step s = .next { s with inbox := es, src := s.src.set a.toNat v } := by
  rw [step_host hi]
  exact if_neg (Bool.eq_false_iff.1 hb)

theorem step_srcWrite_busy (hi : s.inbox = .srcWrite a v :: es) (hb : s.busy = true) :
    step s = .refused .srcWriteWhileBusy := by
  rw [step_host hi]
  exact if_pos hb

theorem step_srcRead (hi : s.inbox = .srcRead a :: es) :
    step s = .next (if s.busy then hostFreeRead a { s with inbox := es }
      else { s with inbox := es, readData := some ((s.src.get a.toNat).setWidth 32) }) := step_host hi

theorem step_dstRead (hi : s.inbox = .dstRead a :: es) :
    step s = .next (if s.busy then hostFreeRead a { s with inbox := es }
      else { s with inbox := es, readData := some ((s.dst.get a.toNat).setWidth 32) }) := step_host hi

end

/-- Settles O39, action by action, BUSY or not. -/
theorem hostMemoryAccesses : Obligations.HostMemoryAccesses := by
  intro s a v es
  refine ⟨fun hi hb hwf => ?_, step_srcWrite_busy, fun hi hb => ?_, fun hi hb => ?_, fun hi hb => ?_⟩
  · exact ⟨_, step_srcWrite_not_busy hi hb, fun x => Memory.get_set hwf a.toNat x v, rfl⟩
  · rw [step_srcRead hi, if_neg (Bool.eq_false_iff.1 hb)]
  · rw [step_dstRead hi, if_neg (Bool.eq_false_iff.1 hb)]
  · refine ⟨Config.freeByte s.draws a.toNat, ?_⟩
    obtain hi | hi := hi
    · rw [step_srcRead hi, if_pos hb]; rfl
    · rw [step_dstRead hi, if_pos hb]; rfl

end Sys2Proof.Proofs.Memories
end

section
/-! PROOF. Chunks as bytes: reading one (R65), its class and length by its first byte (R56, R57), reading what was written
and writing what was read (R58 to R64, R67). -/

namespace Sys2Proof.Proofs.Encoding

open Sys2Proof.Laws.EncodedShape

/-! ### What the decoder reads, class by class -/

/-- R58 to R63: the bytes on the left start with the chunk in the middle, and the bytes on the right follow it. -/
inductive Reads : List Byte → Instr → List Byte → Prop
  | rgb {b1 : Byte} (hc : classOf b1 = .rgb) (r g b : Byte) (rest : List Byte) :
    Reads (b1 :: r :: g :: b :: rest) (.rgb r g b) rest
  | rgba {b1 : Byte} (hc : classOf b1 = .rgba) (r g b a : Byte) (rest : List Byte) :
    Reads (b1 :: r :: g :: b :: a :: rest) (.rgba r g b a) rest
  | index {b1 : Byte} (hc : classOf b1 = .index) (rest : List Byte) :
    Reads (b1 :: rest) (.index (b1.extractLsb' 0 6)) rest
  | diff {b1 : Byte} (hc : classOf b1 = .diff) (rest : List Byte) :
    Reads (b1 :: rest) (.diff (biasedAt b1 4 2 2) (biasedAt b1 2 2 2) (biasedAt b1 0 2 2)) rest
  | luma {b1 : Byte} (hc : classOf b1 = .luma) (b2 : Byte) (rest : List Byte) :
    Reads (b1 :: b2 :: rest) (.luma (biasedAt b1 0 6 32) (biasedAt b2 4 4 8) (biasedAt b2 0 4 8)) rest
  | run {b1 : Byte} (hc : classOf b1 = .run) (rest : List Byte) :
    Reads (b1 :: rest) (.run (fieldAt b1 0 6 + 1)) rest

theorem Reads.decode_eq {bs rest : List Byte} {i : Instr} (h : Reads bs i rest) : decode bs = .ok (i, rest) := by
  cases h with
  | rgb hc | rgba hc | index hc | diff hc | luma hc | run hc => simp [decode, hc]

/-- The decoder reads a chunk where there is one and nowhere else. -/
theorem decode_eq_ok_iff {bs rest : List Byte} {i : Instr} : decode bs = .ok (i, rest) ↔ Reads bs i rest := by
  refine ⟨fun h => ?_, Reads.decode_eq⟩
  unfold decode at h
  split at h
  · cases h
  · split at h <;> cases h
    next hc => exact .rgb hc _ _ _ _
    next hc => exact .rgba hc _ _ _ _ _
    next hc => exact .index hc _
    next hc => exact .diff hc _
    next hc => exact .luma hc _ _
    next hc => exact .run hc _

/-! ### Class and length by the first byte -/

theorem classOf_eq_index_iff : ∀ b : Byte, classOf b = .index ↔ b.toNat ≤ 0x3F := by decide
theorem classOf_eq_diff_iff : ∀ b : Byte, classOf b = .diff ↔ 0x40 ≤ b.toNat ∧ b.toNat ≤ 0x7F := by decide
theorem classOf_eq_luma_iff : ∀ b : Byte, classOf b = .luma ↔ 0x80 ≤ b.toNat ∧ b.toNat ≤ 0xBF := by decide
theorem classOf_eq_run_iff : ∀ b : Byte, classOf b = .run ↔ 0xC0 ≤ b.toNat ∧ b.toNat ≤ 0xFD := by decide
theorem classOf_eq_rgb_iff : ∀ b : Byte, classOf b = .rgb ↔ b.toNat = 0xFE := by decide
theorem classOf_eq_rgba_iff : ∀ b : Byte, classOf b = .rgba ↔ b.toNat = 0xFF := by decide

/-- Settles O4: each range is that of a class, which fixes the length. -/
theorem chunkClassAndLengthByFirstByte : Obligations.ChunkClassAndLengthByFirstByte := by
  have withLength {b : Byte} {c : ChunkClass} {n : Nat} (hc : classOf b = c) (hn : c.length = n) :
      classOf b = c ∧ (classOf b).length = n := ⟨hc, hc ▸ hn⟩
  intro b
  exact ⟨fun h => withLength ((classOf_eq_index_iff b).2 h) rfl, fun h => withLength ((classOf_eq_diff_iff b).2 h) rfl,
    fun h => withLength ((classOf_eq_luma_iff b).2 h) rfl, fun h => withLength ((classOf_eq_run_iff b).2 h) rfl,
    fun h => withLength ((classOf_eq_rgb_iff b).2 h) rfl, fun h => withLength ((classOf_eq_rgba_iff b).2 h) rfl⟩

/-- R57: with the bytes its class asks for, a first byte starts a chunk of that class and length. -/
theorem exists_reads {b1 : Byte} {rest : List Byte} (h : (classOf b1).length ≤ rest.length + 1) :
    ∃ i, Reads (b1 :: rest) i (rest.drop ((classOf b1).length - 1)) ∧ i.chunkClass = classOf b1 := by
  cases hc : classOf b1 with
  | rgb =>
    match rest, hc ▸ h with
    | r :: g :: b :: tail, _ => exact ⟨_, .rgb hc r g b tail, rfl⟩
  | rgba =>
    match rest, hc ▸ h with
    | r :: g :: b :: a :: tail, _ => exact ⟨_, .rgba hc r g b a tail, rfl⟩
  | index => exact ⟨_, .index hc rest, rfl⟩
  | diff => exact ⟨_, .diff hc rest, rfl⟩
  | luma =>
    match rest, hc ▸ h with
    | b2 :: tail, _ => exact ⟨_, .luma hc b2 tail, rfl⟩
  | run => exact ⟨_, .run hc rest, rfl⟩

/-- No chunk is shorter than its class asks for (R57). -/
theorem Reads.length_le {b1 : Byte} {bs rest : List Byte} {i : Instr} (h : Reads (b1 :: bs) i rest) :
    (classOf b1).length ≤ bs.length + 1 := by
  cases h with
  | rgb hc | rgba hc | index hc | diff hc | luma hc | run hc => simp [hc, ChunkClass.length]

/-- R65: with a first byte there, only missing payload is rejected. -/
theorem decode_cons_error {b1 : Byte} {bs : List Byte} {e : DecodeError} (h : decode (b1 :: bs) = .error e) :
    e = .truncated := by
  simp only [decode] at h
  split at h <;> cases h <;> rfl

/-- Settles O3: enough bytes hold a chunk, too few hold none, and after a first byte only payload can be missing. -/
theorem decodeRejectsOnlyMissingBytes : Obligations.DecodeRejectsOnlyMissingBytes := by
  refine ⟨rfl, fun b1 rest => ?_⟩
  split
  next enough =>
    obtain ⟨i, hr, hc⟩ := exists_reads enough
    exact ⟨i, hr.decode_eq, hc⟩
  next short =>
    cases hd : decode (b1 :: rest) with
    | error e => rw [decode_cons_error hd]
    | ok p => exact absurd (decode_eq_ok_iff.1 hd).length_le short

/-! ### Biased fields (R64) -/

/-- A field that holds `x` plus the bias is read as `x`. -/
theorem biasedAt_of_field {b : Byte} {lo len bias : Nat} {x : Int}
    (hf : b.extractLsb' lo len = BitVec.ofInt len (x + bias)) (h0 : 0 ≤ x + bias) (h1 : x + bias < 2 ^ len) : biasedAt b lo len bias = x := by
  have hm : (x + bias) % ((2 ^ len : Nat) : Int) = x + bias := Int.emod_eq_of_lt h0 (by exact_mod_cast h1)
  rw [biasedAt, fieldAt, hf, BitVec.toNat_ofInt, hm, Int.toNat_of_nonneg h0]
  omega

/-- What is read from a field, with the bias added again, is the field. -/
theorem ofInt_biasedAt_add (b : Byte) (lo len bias : Nat) {c : Int} (hc : (bias : Int) = c) :
    BitVec.ofInt len (biasedAt b lo len bias + c) = b.extractLsb' lo len := by
  rw [← hc, biasedAt, Int.sub_add_cancel, fieldAt, BitVec.ofInt_natCast, BitVec.ofNat_toNat, BitVec.setWidth_eq]

/-- A field of `len` bits is read within the range its bias gives. -/
theorem biasedAt_range (b : Byte) (lo len bias : Nat) :
    -(bias : Int) ≤ biasedAt b lo len bias ∧ biasedAt b lo len bias < 2 ^ len - bias := by
  have h : ((fieldAt b lo len : Nat) : Int) < 2 ^ len := by exact_mod_cast (b.extractLsb' lo len).isLt
  unfold biasedAt
  omega

theorem inRange_iff {lo hi d : Int} : inRange lo hi d = true ↔ lo ≤ d ∧ d ≤ hi := decide_eq_true_iff

/-! ### Reading what was written -/

theorem diffByte_fields (x y z : BitVec 2) : (0b01#2 ++ x ++ y ++ z).extractLsb' 4 2 = x ∧
    (0b01#2 ++ x ++ y ++ z).extractLsb' 2 2 = y ∧ (0b01#2 ++ x ++ y ++ z).extractLsb' 0 2 = z := by
  decide +revert

theorem lumaBytes_fields (x : BitVec 6) (y z : BitVec 4) :
    (0b10#2 ++ x).extractLsb' 0 6 = x ∧ (y ++ z).extractLsb' 4 4 = y ∧ (y ++ z).extractLsb' 0 4 = z :=
  ⟨BitVec.extractLsb'_append_eq_right, BitVec.extractLsb'_append_eq_left, BitVec.extractLsb'_append_eq_right⟩

theorem reads_encode_diff {dr dg db : Int} (h : (Instr.diff dr dg db).wf = true) (rest : List Byte) :
    Reads (encode (.diff dr dg db) ++ rest) (.diff dr dg db) rest := by
  simp only [Instr.wf, Bool.and_eq_true, inRange_iff] at h
  obtain ⟨⟨hr, hg⟩, hb⟩ := h
  obtain ⟨fr, fg, fb⟩ := diffByte_fields (.ofInt 2 (dr + 2)) (.ofInt 2 (dg + 2)) (.ofInt 2 (db + 2))
  have reads := Reads.diff (classOf_diff (.ofInt 2 (dr + 2)) (.ofInt 2 (dg + 2)) (.ofInt 2 (db + 2))) rest
  rwa [biasedAt_of_field (bias := 2) fr (by omega) (by omega), biasedAt_of_field (bias := 2) fg (by omega) (by omega),
    biasedAt_of_field (bias := 2) fb (by omega) (by omega)] at reads

theorem reads_encode_luma {dg drg dbg : Int} (h : (Instr.luma dg drg dbg).wf = true) (rest : List Byte) :
    Reads (encode (.luma dg drg dbg) ++ rest) (.luma dg drg dbg) rest := by
  simp only [Instr.wf, Bool.and_eq_true, inRange_iff] at h
  obtain ⟨⟨hg, hr⟩, hb⟩ := h
  obtain ⟨fg, fr, fb⟩ := lumaBytes_fields (.ofInt 6 (dg + 32)) (.ofInt 4 (drg + 8)) (.ofInt 4 (dbg + 8))
  have reads := Reads.luma (classOf_luma (.ofInt 6 (dg + 32))) (BitVec.ofInt 4 (drg + 8) ++ BitVec.ofInt 4 (dbg + 8)) rest
  rwa [biasedAt_of_field (bias := 32) fg (by omega) (by omega), biasedAt_of_field (bias := 8) fr (by omega) (by omega),
    biasedAt_of_field (bias := 8) fb (by omega) (by omega)] at reads

theorem reads_encode_run {n : Nat} (h : (Instr.run n).wf = true) (rest : List Byte) :
    Reads (encode (.run n) ++ rest) (.run n) rest := by
  obtain ⟨h1, h62⟩ : 1 ≤ n ∧ n ≤ 62 := of_decide_eq_true h
  have hk : (BitVec.ofNat 6 (n - 1)).toNat = n - 1 := Nat.mod_eq_of_lt (by omega)
  have reads := Reads.run (classOf_run (.ofNat 6 (n - 1)) (by omega)) rest
  rwa [fieldAt, BitVec.extractLsb'_append_eq_right, hk, Nat.sub_add_cancel h1] at reads

theorem reads_encode_index (k : Slot) (rest : List Byte) : Reads (encode (.index k) ++ rest) (.index k) rest := by
  have reads := Reads.index (classOf_index k) rest
  rwa [BitVec.extractLsb'_append_eq_right] at reads

/-- Settles O1, by class: the first byte has the instruction's class, and each field is read as the operand put in it. -/
theorem decodeInvertsEncode : Obligations.DecodeInvertsEncode := by
  intro i rest h
  refine Reads.decode_eq ?_
  cases i with
  | rgb r g b => exact .rgb rfl r g b rest
  | rgba r g b a => exact .rgba rfl r g b a rest
  | index k => exact reads_encode_index k rest
  | diff dr dg db => exact reads_encode_diff h rest
  | luma dg drg dbg => exact reads_encode_luma h rest
  | run n => exact reads_encode_run h rest

/-! ### Writing what was read: a first byte below 0xFE is its 2-bit tag and its fields (R56, R58 to R61) -/

theorem eq_of_classOf_index : ∀ {b : Byte}, classOf b = .index → b = 0b00#2 ++ b.extractLsb' 0 6 := by decide
theorem eq_of_classOf_diff : ∀ {b : Byte}, classOf b = .diff →
    b = 0b01#2 ++ b.extractLsb' 4 2 ++ b.extractLsb' 2 2 ++ b.extractLsb' 0 2 := by decide
theorem eq_of_classOf_luma : ∀ {b : Byte}, classOf b = .luma → b = 0b10#2 ++ b.extractLsb' 0 6 := by decide
theorem eq_of_classOf_run : ∀ {b : Byte}, classOf b = .run → b = 0b11#2 ++ b.extractLsb' 0 6 := by decide

theorem append_nibbles : ∀ b : Byte, b.extractLsb' 4 4 ++ b.extractLsb' 0 4 = b := by decide

/-- R67: the operands a chunk is read with are in the ranges its fields can hold. -/
theorem Reads.wf {bs rest : List Byte} {i : Instr} (h : Reads bs i rest) : i.wf = true := by
  cases h with
  | rgb | rgba | index => rfl
  | @diff b1 =>
    have := biasedAt_range b1 4 2 2
    have := biasedAt_range b1 2 2 2
    have := biasedAt_range b1 0 2 2
    simp only [Instr.wf, Bool.and_eq_true, inRange_iff]
    omega
  | @luma b1 _ b2 =>
    have := biasedAt_range b1 0 6 32
    have := biasedAt_range b2 4 4 8
    have := biasedAt_range b2 0 4 8
    simp only [Instr.wf, Bool.and_eq_true, inRange_iff]
    omega
  | @run b1 hc =>
    have := Machine.fieldAt_of_classOf_run b1 hc
    exact decide_eq_true ⟨by omega, show fieldAt b1 0 6 + 1 ≤ 62 by omega⟩

/-- R58 to R63: a chunk's fields and its tag make up all of its bytes. -/
theorem Reads.encode_append {bs rest : List Byte} {i : Instr} (h : Reads bs i rest) : encode i ++ rest = bs := by
  cases h with
  | @rgb b1 hc =>
    obtain rfl : b1 = 0xFE#8 := BitVec.eq_of_toNat_eq ((classOf_eq_rgb_iff b1).1 hc)
    rfl
  | @rgba b1 hc =>
    obtain rfl : b1 = 0xFF#8 := BitVec.eq_of_toNat_eq ((classOf_eq_rgba_iff b1).1 hc)
    rfl
  | index hc => exact congrArg (· :: rest) (eq_of_classOf_index hc).symm
  | diff hc =>
    simp only [encode, Nat.cast_ofNat, ofInt_biasedAt_add, ← eq_of_classOf_diff hc, List.cons_append, List.nil_append]
  | luma hc =>
    simp only [encode, Nat.cast_ofNat, ofInt_biasedAt_add, ← eq_of_classOf_luma hc, append_nibbles, List.cons_append,
      List.nil_append]
  | @run b1 hc =>
    have field : BitVec.ofNat 6 (fieldAt b1 0 6 + 1 - 1) = b1.extractLsb' 0 6 := BitVec.ofNat_toNat _ _
    simp only [encode, field, ← eq_of_classOf_run hc, List.cons_append, List.nil_append]

/-- Settles O2: a chunk read is within range, and its fields and tag make up all of its bytes. -/
theorem encodeInvertsDecode : Obligations.EncodeInvertsDecode := fun _ _ _ h =>
  have reads := decode_eq_ok_iff.1 h
  ⟨reads.wf, reads.encode_append⟩

end Sys2Proof.Proofs.Encoding
end

section
/-! PROOF. Pixels: packing (O6), output bytes (O21), the channel delta (O7), the hash (O8). -/

namespace Sys2Proof.Proofs.Pixels

open Sys2Proof.Machine

/-! ### Packing (R69, R70) -/

section
variable (r g b a : Byte)

/-- The packed value as a number (R69): appending is adding at the lane's place. -/
theorem pack_toNat :
    (pack r g b a).toNat = r.toNat * 2 ^ 24 + g.toNat * 2 ^ 16 + b.toNat * 2 ^ 8 + a.toNat := by
  simp only [pack, toNat_append_eq_add]
  omega

/-- A lane of a packed value is a digit of that number in base 256. -/
theorem extractLsb'_pack_toNat (lo : Nat) :
    ((pack r g b a).extractLsb' lo 8).toNat =
      (r.toNat * 2 ^ 24 + g.toNat * 2 ^ 16 + b.toNat * 2 ^ 8 + a.toNat) / 2 ^ lo % 2 ^ 8 := by
  rw [BitVec.extractLsb'_toNat, Nat.shiftRight_eq_div_pow, pack_toNat]

@[simp] theorem red_pack : red (pack r g b a) = r := by
  apply BitVec.eq_of_toNat_eq
  rw [red, extractLsb'_pack_toNat]
  omega

@[simp] theorem green_pack : green (pack r g b a) = g := by
  apply BitVec.eq_of_toNat_eq
  rw [green, extractLsb'_pack_toNat]
  omega

@[simp] theorem blue_pack : blue (pack r g b a) = b := by
  apply BitVec.eq_of_toNat_eq
  rw [blue, extractLsb'_pack_toNat]
  omega

end

/-- The four lanes of a word are its digits in base 256. -/
theorem pack_channels (v : Word) : pack (red v) (green v) (blue v) (alpha v) = v := by
  apply BitVec.eq_of_toNat_eq
  have bound := v.isLt
  simp only [pack_toNat, red, green, blue, alpha, BitVec.extractLsb'_toNat, Nat.shiftRight_eq_div_pow]
  omega

/-- Settles O6: each channel is a digit of the packed number, and the lanes make up the word. -/
theorem packAndUnpackAreInverse : Obligations.PackAndUnpackAreInverse :=
  ⟨fun r g b a => ⟨red_pack r g b a, green_pack r g b a, blue_pack r g b a, alpha_pack r g b a, pack_toNat r g b a⟩,
    pack_channels⟩

/-- Settles O21: the channels of a packed pixel are those packed, and only four channels ask for the last. -/
theorem outputBytesOfAPixel : Obligations.OutputBytesOfAPixel := fun r g b a => by
  constructor
  · rw [pixelBytes, if_neg (by decide), red_pack, green_pack, blue_pack, List.append_nil]
  · rw [pixelBytes, if_pos rfl, red_pack, green_pack, blue_pack, alpha_pack]
    rfl

/-! ### The channel delta (R74) -/

/-- R74: a signed difference is one of 8 bits. -/
theorem delta_range (c p : Byte) : -128 ≤ delta c p ∧ delta c p ≤ 127 :=
  ⟨BitVec.le_toInt (c - p), Int.le_of_lt_add_one BitVec.toInt_lt⟩

/-- R74: the decoder's addition undoes the encoder's difference, for both are taken in 8-bit arithmetic. -/
theorem moved_delta (c p : Byte) : moved p (delta c p) = c :=
  calc BitVec.ofInt 8 (p.toNat + (c - p).toInt)
      = p + (c - p) := by
        rw [BitVec.ofInt_add, BitVec.ofInt_toInt, BitVec.ofInt_natCast, BitVec.ofNat_toNat, BitVec.setWidth_eq]
    _ = c := by rw [BitVec.add_comm, BitVec.sub_add_cancel]

/-- A move from `p` to `c` is by `c - p`, up to a multiple of 256. -/
theorem dvd_of_moved_eq {c p : Byte} {d : Int} (h : moved p d = c) : (256 : Int) ∣ d - ((c.toNat : Int) - p.toNat) := by
  subst h
  rw [moved, BitVec.toNat_ofInt]
  omega

/-- Settles O7: the range is that of 8 signed bits, and the congruence follows from the inversion. -/
theorem deltaIsTheSignedDifferenceAndInverts : Obligations.DeltaIsTheSignedDifferenceAndInverts := fun c p =>
  have inverts := moved_delta c p
  have ⟨low, high⟩ := delta_range c p
  ⟨low, high, dvd_of_moved_eq inverts, inverts⟩

/-! ### The hash (R76, R77) -/

/-- R77: a 6-bit number is the exact one modulo 64. -/
theorem pixelHash_toNat (p : Word) : (pixelHash p).toNat =
    ((red p).toNat * 3 + (green p).toNat * 5 + (blue p).toNat * 7 + (alpha p).toNat * 11) % 64 := BitVec.toNat_ofNat ..

/-- R77: reduction to 6 bits goes through sums and products, down to the channels. -/
theorem pixelHash_eq_adderTree (p : Word) : pixelHash p =
    (red p).setWidth 6 * 3#6 + (green p).setWidth 6 * 5#6 + (blue p).setWidth 6 * 7#6 + (alpha p).setWidth 6 * 11#6 := by
  simp only [pixelHash, BitVec.ofNat_add, BitVec.ofNat_mul, BitVec.ofNat_toNat]

/-- Settles O8: six bits are kept of the exact sum, before or after each operation. -/
theorem hashIsTheSixBitAdderTree : Obligations.HashIsTheSixBitAdderTree := fun p =>
  ⟨pixelHash_toNat p, pixelHash_eq_adderTree p⟩

end Sys2Proof.Proofs.Pixels
end

section
/-! PROOF. The cache: one write (O9), and what every slot holds while an operation runs (O10). -/

namespace Sys2Proof.Proofs.Cache

open Sys2Proof.Machine Sys2Proof.Safety Sys2Proof.Proofs.Latches

/-- Settles O9: the slot read after the write, and the cache put back gives the state before. -/
theorem cacheWriteSetsOneSlot : Obligations.CacheWriteSetsOneSlot := fun s j k v =>
  ⟨cacheRead_cacheWrite s j k v, rfl⟩

/-! ### What a step of the core does to the cache -/

/-- The cache is as before, or one pixel has been written, at its own hash (R79, R80). -/
def KeptOrStored (s t : State) : Prop := t.cache = s.cache ∨ ∃ p, t.cache = (s.cacheWrite (pixelHash p) p).cache

theorem keptOrStored_storingChunk {len : Nat} {p : Word} {s t : State} (h : storingChunk len p s = .next t) :
    KeptOrStored s t := by
  obtain ⟨-, rfl⟩ := storingChunk_next h
  exact .inr ⟨p, rfl⟩

theorem keptOrStored_retirePixel {s t : State} (h : retirePixel s = .next t) : KeptOrStored s t := by
  obtain ⟨-, rfl⟩ := retirePixel_next h
  exact .inl rfl

/-- Every class of chunk stores its pixel, but INDEX (R104). -/
theorem keptOrStored_exec {i : Instr} {s t : State} (h : exec i s = .next t) : KeptOrStored s t := by
  cases i with
  | rgb r g b => exact keptOrStored_storingChunk h
  | rgba r g b a => exact keptOrStored_storingChunk h
  | index k => exact keptOrStored_retirePixel (s := takeChunk 1 (s.cacheRead k) s) h
  | diff dr dg db => exact keptOrStored_storingChunk h
  | luma dg drg dbg => exact keptOrStored_storingChunk h
  | run n => exact keptOrStored_storingChunk (s := { s with run := BitVec.ofNat 6 (n - 1) }) h

/-- Only a chunk stores a pixel: neither the continuation of a run nor exhausted input does (R95 to R97). -/
theorem keptOrStored_decodePixel {s t : State} (h : decodePixel s = .next t) : KeptOrStored s t := by
  by_cases hr : s.run = 0
  · by_cases hrp : s.rp.toNat < s.cend.toNat
    · rw [decodePixel_fetch hr hrp] at h
      obtain ⟨i, -, hi⟩ := runChunk_next h
      exact keptOrStored_exec hi
    · rw [decodePixel_exhausted hr hrp] at h
      exact keptOrStored_retirePixel h
  · rw [decodePixel_continue hr] at h
    exact keptOrStored_retirePixel (s := { s with run := s.run - 1 }) h

/-- A changed pixel ends in its slot (R86); one equal to the one before leaves the cache alone (R83). -/
theorem keptOrStored_encodeChoose {s t : State} (h : encodeChoose s = .next t) : KeptOrStored s t := by
  unfold encodeChoose at h
  split at h
  · obtain ⟨-, rfl⟩ | ⟨-, -, rfl⟩ := repeatPixel_next h <;> exact .inl rfl
  · obtain ⟨u, hu, ht⟩ := andThen_eq_next h
    have flushed : u.cache = s.cache := by obtain ⟨-, rfl⟩ | ⟨-, -, rfl⟩ := flushRun_next hu <;> rfl
    rw [emitChanged_eq] at ht
    obtain ⟨-, rfl⟩ := putBytes_next ht
    refine .inr ⟨s.px, ?_⟩
    rw [cacheWrite_cache, cacheWrite_cache, flushed]

theorem keptOrStored_encodePixel {s t : State} (h : encodePixel s = .next t) : KeptOrStored s t := by
  unfold encodePixel at h
  split at h
  · obtain ⟨u, hu, ht⟩ := andThen_eq_next h
    cases ht
    exact keptOrStored_encodeChoose (s := takeUnit s) (t := u) hu
  · cases h

theorem keptOrStored_coreStep {s t : State} (h : coreStep s = .next t) : KeptOrStored s t := by
  obtain ⟨-, rfl⟩ | ⟨-, ht⟩ | ⟨-, ht⟩ | ⟨-, ht⟩ | ⟨-, ht⟩ := coreStep_cases h
  · exact .inl rfl
  · rw [encodeHeader_eq] at ht; cases ht; exact .inl rfl
  · exact keptOrStored_encodePixel ht
  · obtain ⟨-, rfl⟩ := encodeEnd_next ht; exact .inl rfl
  · exact keptOrStored_decodePixel ht

/-! ### The invariant of the slots -/

/-- Each slot holds the initial value or a pixel that hashes to it: what `CacheInv` asks of a state that is BUSY. -/
def SlotsHashed (s : State) : Prop := ∀ k : Slot, s.cacheRead k = Config.cacheInit ∨ pixelHash (s.cacheRead k) = k

theorem SlotsHashed.of_cache_eq {s t : State} (h : SlotsHashed s) (hc : t.cache = s.cache) : SlotsHashed t := by
  intro k
  rw [State.cacheRead, hc]
  exact h k

/-- The slot written holds a pixel of its hash, and the others are as before. -/
theorem SlotsHashed.cacheWrite {s : State} (h : SlotsHashed s) (p : Word) :
    SlotsHashed (s.cacheWrite (pixelHash p) p) := by
  intro k
  rw [cacheRead_cacheWrite]
  split
  next hk => exact .inr hk.symm
  · exact h k

theorem SlotsHashed.of_keptOrStored {s t : State} (h : SlotsHashed s) (hc : KeptOrStored s t) : SlotsHashed t := by
  obtain kept | ⟨p, stored⟩ := hc
  · exact h.of_cache_eq kept
  · exact (h.cacheWrite p).of_cache_eq stored

/-- What an accepted start leaves (R34): every slot holds the initial value. -/
theorem slotsHashed_of_initial {s : State} (h : s.cache = Vector.replicate 64 Config.cacheInit) : SlotsHashed s := by
  intro k
  left
  simp [State.cacheRead, h]

theorem cacheInv_of_not_busy {s : State} (hb : s.busy = false) : CacheInv s := fun h => by rw [hb] at h; cases h

theorem cacheInv_coreStep {s t : State} (h : CacheInv s) (ht : coreStep s = .next t) : CacheInv t := fun hb =>
  SlotsHashed.of_keptOrStored (h (busy_of_coreStep_busy ht hb)) (keptOrStored_coreStep ht)

/-- A register write while not BUSY starts no operation, or one whose cache is initialised. -/
theorem cacheInv_regUpdate {s : State} (hb : s.busy = false) (off v : Word) : CacheInv (regUpdate off v s) := by
  obtain ⟨w, h, c, cs, d, l, heq⟩ | ⟨c, heq⟩ | ⟨-, -, heq⟩ | ⟨w, h, c, cs, -, -, -, heq⟩ := regUpdate_cases off v s
  · rw [heq]; exact cacheInv_of_not_busy hb
  · rw [heq]; exact cacheInv_of_not_busy rfl
  · rw [heq]; exact fun _ => slotsHashed_of_initial rfl
  · rw [heq]; exact fun _ => slotsHashed_of_initial rfl

/-- Settles O10, by the cases of a step: the core stores a pixel only at its own hash, a start initialises every slot, and
no other action of the host touches the cache of a running operation. -/
theorem cacheSlotsHoldTheirHash : Obligations.CacheSlotsHoldTheirHash := by
  intro s t h ht
  obtain ⟨es, ht⟩ | ⟨es, rfl⟩ | ⟨es, rd, k, rfl⟩ | ⟨hb, es, a, v, rfl⟩ | ⟨hb, es, off, v, rfl⟩ := step_cases ht
  · exact cacheInv_coreStep (s := { s with inbox := es }) h ht
  · exact cacheInv_of_not_busy rfl
  · exact h
  · exact cacheInv_of_not_busy hb
  · exact cacheInv_regUpdate (s := { s with inbox := es }) hb off v

end Sys2Proof.Proofs.Cache
end

section
/-! PROOF. Runs of several steps: how one is taken apart. -/

namespace Sys2Proof.Proofs.Runs

open Sys2Proof.Machine Sys2Proof.Safety

/-- A run whose first step is known goes on from there. -/
theorem stepN_succ {s u : State} (h : step s = .next u) (k : Nat) : stepN (k + 1) s = stepN k u := by
  rw [stepN, h, andThen_next]

theorem stepN_one (s : State) : stepN 1 s = step s := by
  rw [stepN]
  cases step s <;> rfl

/-- A run of `j + k` steps is one of `j`, then one of `k`. -/
theorem stepN_add (j k : Nat) (s : State) : stepN (j + k) s = andThen (stepN j s) (stepN k) := by
  induction j generalizing s with
  | zero => rw [Nat.zero_add]; rfl
  | succ j ih =>
    rw [Nat.add_right_comm, stepN, stepN]
    cases step s with
    | next u => exact ih u
    | fault r => rfl
    | refused r => rfl

/-- A run that ends in a next state and is not empty took a first step. -/
theorem stepN_succ_next {k : Nat} {s t : State} (h : stepN (k + 1) s = .next t) :
    ∃ u, step s = .next u ∧ stepN k u = .next t := andThen_eq_next h

end Sys2Proof.Proofs.Runs
end

section
/-! PROOF. The run of an accepted encode: it reaches DONE within the output bound (O50). -/

namespace Sys2Proof.Proofs.EncodeRun

open Sys2Proof.Machine Sys2Proof.Safety Sys2Proof.Proofs.Invariant Sys2Proof.Proofs.Latches Sys2Proof.Proofs.Bounds
  Sys2Proof.Proofs.Runs

/-! ### The frame along a run -/

theorem encodeFrame_trans {s t u : State} (h : EncodeFrame s t) (h' : EncodeFrame t u) : EncodeFrame s u := by
  obtain ⟨⟨e, w, h, c, cs, d, l⟩, ⟨n, ch, oc, ce⟩, src, i, r, k⟩ := h
  obtain ⟨⟨e', w', h', c', cs', d', l'⟩, ⟨n', ch', oc', ce'⟩, src', i', r', k'⟩ := h'
  exact ⟨⟨e'.trans e, w'.trans w, h'.trans h, c'.trans c, cs'.trans cs, d'.trans d, l'.trans l⟩,
    ⟨n'.trans n, ch'.trans ch, oc'.trans oc, ce'.trans ce⟩, src'.trans src, i'.trans i, r'.trans r, k'.trans k⟩

/-! ### From E_HDR through E_PIX to E_END -/

/-- One step in E_PIX, from the invariant: it answers, with one pixel more, in E_END after the last (R83). -/
theorem step_ePix {s : State} (h : Inv s) (hi : s.inbox = []) (hf : s.fsm = .ePix) :
    ∃ t, step s = .next t ∧ Inv t ∧ EncodeFrame s t ∧ t.i = s.i + 1 ∧
      t.fsm = if s.i + 1 = s.n then .eEnd else .ePix := by
  have ht := (coreStep_ePix hf).trans (encodePixel_of_inv h hf)
  refine ⟨_, (step_core hi).trans ht, inv_coreStep h ht, coreStep_frame ht, rfl, ?_⟩
  rw [encodeAdvance_fsm, ← hf]
  rfl

/-- From a pixel on, as many steps as pixels are left lead to E_END. -/
theorem stepN_ePix {k : Nat} {s : State} (h : Inv s) (hi : s.inbox = []) (hf : s.fsm = .ePix)
    (hk : s.i.toNat + k = s.n.toNat) : ∃ t, stepN k s = .next t ∧ Inv t ∧ EncodeFrame s t ∧ t.fsm = .eEnd := by
  induction k generalizing s with
  | zero =>
    obtain ⟨-, -, -, hpix, -⟩ := h
    obtain ⟨-, -, hlt⟩ := hpix hf
    omega
  | succ k ih =>
    obtain ⟨u, hu, hinv, hframe, hiu, hfu⟩ := step_ePix h hi hf
    obtain ⟨-, ⟨hn, -⟩, -, hin, -⟩ := id hframe
    have hi1 : (s.i + 1).toNat = s.i.toNat + 1 := toNat_add_one (n := s.n) (by omega)
    rw [stepN_succ hu]
    by_cases hlast : s.i + 1 = s.n
    · obtain rfl : k = 0 := by rw [← hlast, hi1] at hk; omega
      exact ⟨u, rfl, hinv, hframe, hfu.trans (if_pos hlast)⟩
    · obtain ⟨t, ht, hinv', hframe', hft⟩ :=
        ih hinv (hin.trans hi) (hfu.trans (if_neg hlast)) (by rw [hiu, hn, hi1]; omega)
      exact ⟨t, ht, hinv', encodeFrame_trans hframe hframe', hft⟩

/-- The step in E_HDR, from the invariant: E_PIX, before the first pixel (R82). -/
theorem step_eHdr {s : State} (h : Inv s) (hi : s.inbox = []) (hf : s.fsm = .eHdr) :
    ∃ t, step s = .next t ∧ Inv t ∧ EncodeFrame s t ∧ t.fsm = .ePix ∧ t.i = 0 := by
  have ht := (coreStep_eHdr hf).trans (encodeHeader_eq s)
  refine ⟨_, (step_core hi).trans ht, inv_coreStep h ht, coreStep_frame ht, rfl, ?_⟩
  obtain ⟨-, -, hhdr, -⟩ := h
  obtain ⟨-, hi0, -⟩ := hhdr hf
  exact hi0

/-- From an accepted start the header and all N pixels lead to E_END in N + 1 steps. -/
theorem stepN_eHdr {s : State} (h : Inv s) (hi : s.inbox = []) (hf : s.fsm = .eHdr) :
    ∃ t, stepN (s.n.toNat + 1) s = .next t ∧ Inv t ∧ EncodeFrame s t ∧ t.fsm = .eEnd := by
  obtain ⟨u, hu, hinv, hframe, hfu, hiu⟩ := step_eHdr h hi hf
  obtain ⟨-, ⟨hn, -⟩, -, hin, -⟩ := id hframe
  obtain ⟨t, ht, hinv', hframe', hft⟩ := stepN_ePix (k := s.n.toNat) hinv (hin.trans hi) hfu (by rw [hiu, hn]; simp)
  exact ⟨t, (stepN_succ hu _).trans ht, hinv', encodeFrame_trans hframe hframe', hft⟩

/-! ### The end step and the bound -/

/-- In E_END `wp` is past a byte after the header at least, and within the bound (R92). -/
theorem wp_range_of_eEnd {s : State} (h : Inv s) (hf : s.fsm = .eEnd) :
    15 ≤ s.wp.toNat ∧ s.wp.toNat ≤ 14 + s.n.toNat * (s.ch.toNat + 1) := by
  obtain ⟨-, -, -, -, hend, -⟩ := h
  obtain ⟨hl, ⟨-, -, -, -, hwp15, hbound⟩, hin, hrun⟩ := hend hf
  obtain ⟨hv, -, hn, -⟩ := hl
  obtain ⟨hw, hh, -⟩ := headerFieldsValid_iff.1 hv
  have hpos : 0 < s.n.toNat := hn ▸ Nat.mul_pos hw hh
  rw [if_pos hrun, hin] at hbound
  exact ⟨hwp15 ⟨hin ▸ hpos, hrun⟩, hbound⟩

/-- The step in E_END, from the invariant: DONE, eight bytes on (R91). -/
theorem step_eEnd {s : State} (h : Inv s) (hi : s.inbox = []) (hf : s.fsm = .eEnd) :
    ∃ t, step s = .next t ∧ EncodeFrame s t ∧ t.fsm = .done ∧ t.wp.toNat = s.wp.toNat + 8 := by
  have room := room_of_inv h (busy_of_fsm hf rfl) (k := 8) (by decide)
  have ht := (coreStep_eEnd hf).trans (encodeEnd_room room.le)
  refine ⟨_, (step_core hi).trans ht, coreStep_frame ht, rfl, ?_⟩
  simp only [Config.addressSpace] at room
  show (s.wp + 8).toNat = s.wp.toNat + 8
  bv_omega

/-- Settles O50: N + 1 steps to E_END by induction over the pixels left, one more to DONE, and the bound the invariant
carries through E_PIX. -/
theorem encodeReachesDoneWithinTheBound : Obligations.EncodeReachesDoneWithinTheBound := by
  intro s h hi hf
  obtain ⟨u, hu, hinv, hframe, hfu⟩ := stepN_eHdr h hi hf
  obtain ⟨⟨herr, -⟩, ⟨hn, hch, -⟩, -, hin, -⟩ := hframe
  obtain ⟨low, high⟩ := wp_range_of_eEnd hinv hfu
  obtain ⟨t, ht, ⟨⟨herr', -⟩, -⟩, hft, hwp⟩ := step_eEnd hinv (hin.trans hi) hfu
  rw [hn, hch] at high
  have run : stepN (s.n.toNat + 1 + 1) s = .next t := by rw [stepN_add, hu, andThen_next, stepN_one, ht]
  exact ⟨t, run, hft, herr'.trans herr, by omega, by omega⟩

end Sys2Proof.Proofs.EncodeRun
end

section
/-! PROOF. Two encodes of the same input: what an earlier operation left over reaches neither (O51). -/

namespace Sys2Proof.Proofs.EncodeInputs

open Sys2Proof.Machine Sys2Proof.Safety Sys2Proof.Proofs.Invariant Sys2Proof.Proofs.Latches Sys2Proof.Proofs.Bounds
  Sys2Proof.Proofs.Memories Sys2Proof.Proofs.Registers Sys2Proof.Proofs.Runs

/-! ### What may differ between two running encodes -/

/-- What two encodes of the same input may differ in: the memories, and what no step of the encoder reads. -/
structure Leftovers where
  src : Memory
  dst : DstMemory
  desiredChannels : Byte
  oc : Byte
  readData : Option Word
  draws : Nat

/-- The leftovers of a state. -/
def leftovers (s : State) : Leftovers := ⟨s.src, s.dst, s.desiredChannels, s.oc, s.readData, s.draws⟩

/-- The state with other leftovers. -/
def withLeftovers (l : Leftovers) (s : State) : State :=
  { s with
    src := l.src, dst := l.dst, desiredChannels := l.desiredChannels, oc := l.oc, readData := l.readData,
    draws := l.draws }

/-- The leftovers after bytes have been written to their DST. -/
def Leftovers.written (l : Leftovers) (a : Nat) (bs : List Byte) : Leftovers := { l with dst := l.dst.setBytes a bs }

/-- The leftovers hold the input of `s`, and the output `s` has written so far. -/
def AgreesWith (l : Leftovers) (s : State) : Prop :=
  l.dst.wf = true ∧ (∀ a, a < s.srcLen.toNat → l.src.get a = s.src.get a) ∧
    ∀ a, a < s.wp.toNat → l.dst.get a = s.dst.get a

/-- Bytes appended to both outputs leave them in agreement. -/
theorem AgreesWith.written {l : Leftovers} {s t : State} {bs : List Byte} (h : AgreesWith l s) (hd : s.dst.wf = true)
    (hb : Appended bs s t) (hf : EncodeFrame s t) : AgreesWith (l.written s.wp.toNat bs) t := by
  obtain ⟨hl, hsrc, hdst⟩ := h
  obtain ⟨room, hdt, hwp⟩ := hb
  obtain ⟨⟨-, -, -, -, -, -, hlen⟩, -, hs, -⟩ := hf
  have hwp : t.wp.toNat = s.wp.toNat + bs.length := by
    simp only [Config.addressSpace] at room
    rw [hwp, BitVec.toNat_add, BitVec.toNat_ofNat]
    omega
  refine ⟨DstMemory.setBytes_wf hl room.le, by rw [hlen, hs]; exact hsrc, fun a ha => ?_⟩
  rw [hdt, Leftovers.written, DstMemory.get_setBytes hl room.le, DstMemory.get_setBytes hd room.le]
  split
  · rfl
  · exact hdst a (by omega)

/-! ### A step of the encoder appends the same bytes whatever the leftovers -/

/-- From `s` to `t` bytes have been appended, and with the leftovers `l` the step would have appended the same. -/
def AppendsSame (l : Leftovers) (s t : State) : Prop :=
  ∃ bs, Appended bs s t ∧ coreStep (withLeftovers l s) = .next (withLeftovers (l.written s.wp.toNat bs) t)

section
variable (l : Leftovers) {s t : State} (h : Inv s)
include h

theorem appendsSame_eHdr (hf : s.fsm = .eHdr) (ht : encodeHeader s = .next t) : AppendsSame l s t := by
  have room := room_of_inv h (busy_of_fsm hf rfl) (k := 14) le_rfl
  obtain ⟨-, -, hhdr, -⟩ := h
  obtain ⟨-, -, -, hwp, -⟩ := hhdr hf
  rw [encodeHeader_eq] at ht
  cases ht
  refine ⟨headerOf s.width s.height s.channels s.colorspace, ⟨room, ?_⟩, ?_⟩
  · rw [hwp]
    exact ⟨rfl, rfl⟩
  · rw [coreStep_eHdr (s := withLeftovers l s) hf, encodeHeader_eq, hwp]
    rfl

theorem appendsSame_ePix (hsrc : ∀ a, a < s.srcLen.toNat → l.src.get a = s.src.get a) (hf : s.fsm = .ePix)
    (ht : encodePixel s = .next t) : AppendsSame l s t := by
  rw [encodePixel_of_inv h hf] at ht
  cases ht
  have hlen := length_chosenBytes_le_six (takeUnit s)
  have room {k : Nat} (hk : k ≤ 6) := room_of_inv h (busy_of_fsm hf rfl) (k := k) (by omega)
  refine ⟨chosenBytes (takeUnit s), ⟨room hlen, rfl, rfl⟩, ?_⟩
  obtain ⟨-, -, -, hpix, -⟩ := h
  obtain ⟨hlatch, hp, hi⟩ := hpix hf
  have hunit := unit_below_srcLen hlatch hp hi
  have htake : takeUnit (withLeftovers l s) = withLeftovers l (takeUnit s) :=
    congrArg (withLeftovers l) (takeUnit_withSrc hsrc hunit)
  rw [coreStep_ePix (s := withLeftovers l s) hf,
    encodePixel_room (s := withLeftovers l s) (hunit.trans s.srcLen.isLt.le) (room le_rfl).le, htake]
  rfl

theorem appendsSame_eEnd (hf : s.fsm = .eEnd) (ht : encodeEnd s = .next t) : AppendsSame l s t := by
  obtain ⟨room, rfl⟩ := encodeEnd_next ht
  refine ⟨Config.endMarker, ⟨room_of_inv h (busy_of_fsm hf rfl) (by decide), rfl, rfl⟩, ?_⟩
  exact (coreStep_eEnd (s := withLeftovers l s) hf).trans (encodeEnd_room (s := withLeftovers l s) room)

end

/-- A step of the core outside a decode goes the same way whatever the leftovers, and keeps the agreement. -/
theorem coreStep_withLeftovers {l : Leftovers} {s t : State} (hl : AgreesWith l s) (h : Inv s) (hf : s.fsm ≠ .dPix)
    (ht : coreStep s = .next t) :
    ∃ l', coreStep (withLeftovers l s) = .next (withLeftovers l' t) ∧ AgreesWith l' t := by
  have hframe := coreStep_frame ht
  have hsame : AppendsSame l s t := by
    obtain ⟨hb, rfl⟩ | ⟨hf, ht⟩ | ⟨hf, ht⟩ | ⟨hf, ht⟩ | ⟨hd, -⟩ := coreStep_cases ht
    · exact ⟨[], appended_nil _, coreStep_waiting (s := withLeftovers l _) hb⟩
    · exact appendsSame_eHdr l h hf ht
    · obtain ⟨-, hsrc, -⟩ := hl
      exact appendsSame_ePix l h hsrc hf ht
    · exact appendsSame_eEnd l h hf ht
    · exact absurd hd hf
  obtain ⟨bs, happ, heq⟩ := hsame
  obtain ⟨-, hd, -⟩ := h
  exact ⟨_, heq, hl.written hd happ hframe⟩

/-! ### Runs -/

/-- What a run of the core outside a decode keeps: the invariant, no host action to come, no decode. -/
def EncoderRuns (s : State) : Prop := Inv s ∧ s.inbox = [] ∧ s.fsm ≠ .dPix

theorem encoderRuns_step {s t : State} (h : EncoderRuns s) (ht : step s = .next t) : EncoderRuns t := by
  obtain ⟨hinv, hi, hf⟩ := h
  rw [step_core hi] at ht
  obtain ⟨-, -, -, hin, -⟩ := coreStep_frame ht
  exact ⟨inv_coreStep hinv ht, hin.trans hi, fun hd => hf (dPix_of_coreStep_dPix ht hd)⟩

/-- The simulation: a run goes the same way whatever the leftovers. -/
theorem stepN_withLeftovers {k : Nat} {l : Leftovers} {s t : State} (hl : AgreesWith l s) (h : EncoderRuns s)
    (ht : stepN k s = .next t) :
    ∃ l', stepN k (withLeftovers l s) = .next (withLeftovers l' t) ∧ AgreesWith l' t := by
  induction k generalizing l s with
  | zero => cases ht; exact ⟨l, rfl, hl⟩
  | succ k ih =>
    obtain ⟨u, hu, hrun⟩ := stepN_succ_next ht
    have hu' := encoderRuns_step h hu
    obtain ⟨hinv, hi, hf⟩ := h
    rw [step_core hi] at hu
    obtain ⟨l₁, hstep, hl₁⟩ := coreStep_withLeftovers hl hinv hf hu
    obtain ⟨l', hend, hl'⟩ := ih hl₁ hu' hrun
    exact ⟨l', (stepN_succ ((step_core (s := withLeftovers l s) hi).trans hstep) k).trans hend, hl'⟩

/-- A run writes no byte of DST at or above the `wp` it ends with (R46). -/
theorem stepN_keeps_dst_above {k : Nat} {s t : State} (h : EncoderRuns s) (ht : stepN k s = .next t) :
    s.wp.toNat ≤ t.wp.toNat ∧ ∀ a, t.wp.toNat ≤ a → t.dst.get a = s.dst.get a := by
  induction k generalizing s with
  | zero => cases ht; exact ⟨le_rfl, fun _ _ => rfl⟩
  | succ k ih =>
    obtain ⟨u, hu, hrun⟩ := stepN_succ_next ht
    obtain ⟨hle, habove⟩ := ih (encoderRuns_step h hu) hrun
    obtain ⟨hinv, hi, -⟩ := h
    obtain ⟨hle₁, hkept⟩ := dstIsWrittenInOrder s u hinv hi hu
    exact ⟨hle₁.trans hle, fun a ha => (habove a ha).trans (hkept a (.inr (hle.trans ha)))⟩

/-- Outside an operation, and with no host action to come, a run leaves the state as it is (R126). -/
theorem stepN_waiting {s : State} (hb : s.busy = false) (hi : s.inbox = []) (k : Nat) : stepN k s = .next s := by
  induction k with
  | zero => rfl
  | succ k ih => exact (stepN_succ ((step_core hi).trans (coreStep_waiting hb)) k).trans ih

/-! ### The start -/

/-- Two states make the same request of an encode start: header, length, and the host actions to come. -/
def SameRequest (s s' : State) : Prop :=
  s.width = s'.width ∧ s.height = s'.height ∧ s.channels = s'.channels ∧ s.colorspace = s'.colorspace ∧
    s.srcLen = s'.srcLen ∧ s.inbox = s'.inbox

/-- The same request is answered alike: with the same error, or accepted. -/
theorem encodeStart_sameRequest {s s' : State} (h : SameRequest s s') :
    (∃ c, encodeStart s = raiseError c s ∧ encodeStart s' = raiseError c s') ∨
    (headerFieldsValid s.width s.height s.channels s.colorspace = true ∧
      s.srcLen.toNat = s.width.toNat * s.height.toNat * s.channels.toNat ∧
      encodeStart s = encodeAccept s ∧ encodeStart s' = encodeAccept s') := by
  obtain ⟨hw, hh, hc, hcs, hl, -⟩ := h
  unfold encodeStart
  rw [← hw, ← hh, ← hc, ← hcs, ← hl]
  split
  · exact .inl ⟨_, rfl, rfl⟩
  · split
    · exact .inl ⟨_, rfl, rfl⟩
    next hv =>
      split
      · exact .inl ⟨_, rfl, rfl⟩
      next hlen => exact .inr ⟨Bool.eq_true_of_not_eq_false hv, not_not.1 hlen, rfl, rfl⟩

/-- Accepted starts of the same request differ in leftovers alone (R34). -/
theorem encodeAccept_sameRequest {s s' : State} (h : SameRequest s s') :
    encodeAccept s' = withLeftovers (leftovers (encodeAccept s')) (encodeAccept s) := by
  obtain ⟨hw, hh, hc, hcs, hl, hi⟩ := h
  simp only [encodeAccept, latchOperation, beginOperation, withLeftovers, leftovers, hw, hh, hc, hcs, hl, hi]

/-- An accepted start has written nothing yet, so inputs that agree are all the agreement there is. -/
theorem agreesWith_encodeAccept {s s' : State} (hd : s'.dst.wf = true)
    (hsrc : ∀ a, a < s.srcLen.toNat → s.src.get a = s'.src.get a) :
    AgreesWith (leftovers (encodeAccept s')) (encodeAccept s) :=
  ⟨hd, fun a ha => (hsrc a ha).symm, fun _ ha => absurd ha (Nat.not_lt_zero _)⟩

/-- Settles O51: the starts fail alike and nothing follows, or the accepted machines differ in leftovers alone, and the
simulation carries that to the end of the run. -/
theorem encodeDependsOnItsInputsAlone : Obligations.EncodeDependsOnItsInputsAlone := by
  intro s s' hinv hinv' hb hb' hi hi' hw hh hc hcs hl hsrc k t t' ht ht'
  rw [stepN_succ (step_encodeStart hi hb rfl)] at ht
  rw [stepN_succ (step_encodeStart hi' hb' rfl)] at ht'
  have hreq : SameRequest { s with inbox := [] } { s' with inbox := [] } := ⟨hw, hh, hc, hcs, hl, rfl⟩
  obtain ⟨c, he, he'⟩ | ⟨hv, hlen, ha, ha'⟩ := encodeStart_sameRequest hreq
  · rw [he, stepN_waiting rfl rfl] at ht
    rw [he', stepN_waiting rfl rfl] at ht'
    cases ht
    cases ht'
    exact ⟨rfl, rfl, rfl, fun a ha => absurd ha (Nat.not_lt_zero a), fun _ _ => rfl⟩
  · rw [ha] at ht
    rw [ha', encodeAccept_sameRequest hreq] at ht'
    obtain ⟨hs, hd, -⟩ := hinv
    obtain ⟨-, hd', -⟩ := hinv'
    have hruns : EncoderRuns (encodeAccept { s with inbox := [] }) :=
      ⟨inv_encodeAccept (s := { s with inbox := [] }) hs hd hv hlen, rfl, nofun⟩
    obtain ⟨l, hend, -, -, hdst⟩ := stepN_withLeftovers
      (agreesWith_encodeAccept (s := { s with inbox := [] }) (s' := { s' with inbox := [] }) hd' hsrc) hruns ht
    rw [hend] at ht'
    cases ht'
    obtain ⟨-, habove⟩ := stepN_keeps_dst_above hruns ht
    exact ⟨rfl, rfl, rfl, fun a ha => (hdst a ha).symm, habove⟩

end Sys2Proof.Proofs.EncodeInputs
end

section
/-! PROOF. The encoder's steps one at a time: header, pixel, end marker (O23 to O26). -/

namespace Sys2Proof.Proofs.EncodeSteps

open Sys2Proof.Machine Sys2Proof.Safety Sys2Proof.Proofs.Latches Sys2Proof.Proofs.Encoding

/-! ### The bytes of a chunk by the rules' formulas (R84 to R90) -/

/-- R84: the RUN byte, for every length its field can hold. -/
theorem encode_run_eq {r : Nat} (h : r ≤ 64) : encode (.run r) = [runByte r] := by
  refine congrArg (fun b : Byte => [b]) (BitVec.eq_of_toNat_eq ?_)
  rw [toNat_append_eq_add, runByte, BitVec.toNat_ofNat, BitVec.toNat_ofNat, BitVec.toNat_ofNat]
  omega

/-- R85: the INDEX byte is its slot number. -/
theorem encode_index_eq (k : Slot) : encode (.index k) = [BitVec.ofNat 8 k.toNat] := by
  refine congrArg (fun b : Byte => [b]) (BitVec.eq_of_toNat_eq ?_)
  have := k.isLt
  rw [toNat_append_eq_add, BitVec.toNat_ofNat, BitVec.toNat_ofNat]
  omega

/-- A field that can hold an integer holds it. -/
theorem toNat_ofInt_of_lt {w : Nat} {x : Int} (h0 : 0 ≤ x) (h1 : x < 2 ^ w) : ((BitVec.ofInt w x).toNat : Int) = x := by
  rw [BitVec.toNat_ofInt, Int.emod_eq_of_lt h0 (by exact_mod_cast h1), Int.toNat_of_nonneg h0]

/-- R67: the operands of a DIFF chunk. -/
theorem wf_diff_iff {dr dg db : Int} : (Instr.diff dr dg db).wf = true ↔
    (-2 ≤ dr ∧ dr ≤ 1) ∧ (-2 ≤ dg ∧ dg ≤ 1) ∧ (-2 ≤ db ∧ db ≤ 1) := by
  simp only [Instr.wf, Bool.and_eq_true, inRange_iff, and_assoc]

/-- R67: the operands of a LUMA chunk. -/
theorem wf_luma_iff {dg drg dbg : Int} : (Instr.luma dg drg dbg).wf = true ↔
    (-32 ≤ dg ∧ dg ≤ 31) ∧ (-8 ≤ drg ∧ drg ≤ 7) ∧ (-8 ≤ dbg ∧ dbg ≤ 7) := by
  simp only [Instr.wf, Bool.and_eq_true, inRange_iff, and_assoc]

/-- R87: the DIFF byte, for operands in range. -/
theorem encode_diff_eq {dr dg db : Int} (h : (Instr.diff dr dg db).wf = true) :
    encode (.diff dr dg db) = [BitVec.ofInt 8 (0x40 + (dr + 2) * 16 + (dg + 2) * 4 + (db + 2))] := by
  obtain ⟨hr, hg, hb⟩ := wf_diff_iff.1 h
  have fr := toNat_ofInt_of_lt (w := 2) (x := dr + 2) (by omega) (by omega)
  have fg := toNat_ofInt_of_lt (w := 2) (x := dg + 2) (by omega) (by omega)
  have fb := toNat_ofInt_of_lt (w := 2) (x := db + 2) (by omega) (by omega)
  have f8 := toNat_ofInt_of_lt (w := 8) (x := 0x40 + (dr + 2) * 16 + (dg + 2) * 4 + (db + 2)) (by omega) (by omega)
  refine congrArg (fun b : Byte => [b]) (BitVec.eq_of_toNat_eq ?_)
  simp only [toNat_append_eq_add, BitVec.toNat_ofNat]
  omega

/-- R88, R89: the LUMA bytes, for operands in range. -/
theorem encode_luma_eq {dg drg dbg : Int} (h : (Instr.luma dg drg dbg).wf = true) :
    encode (.luma dg drg dbg) = [BitVec.ofInt 8 (0x80 + (dg + 32)), BitVec.ofInt 8 ((drg + 8) * 16 + (dbg + 8))] := by
  obtain ⟨hg, hr, hb⟩ := wf_luma_iff.1 h
  have fg := toNat_ofInt_of_lt (w := 6) (x := dg + 32) (by omega) (by omega)
  have fr := toNat_ofInt_of_lt (w := 4) (x := drg + 8) (by omega) (by omega)
  have fb := toNat_ofInt_of_lt (w := 4) (x := dbg + 8) (by omega) (by omega)
  have f1 := toNat_ofInt_of_lt (w := 8) (x := 0x80 + (dg + 32)) (by omega) (by omega)
  have f2 := toNat_ofInt_of_lt (w := 8) (x := (drg + 8) * 16 + (dbg + 8)) (by omega) (by omega)
  refine congrArg₂ (fun b c : Byte => [b, c]) (BitVec.eq_of_toNat_eq ?_) (BitVec.eq_of_toNat_eq ?_) <;>
    simp only [toNat_append_eq_add, BitVec.toNat_ofNat] <;> omega

/-- R83, R87 to R90: the chunk of a pixel that missed the cache has the bytes of the rules' formulas. -/
theorem encode_missChunk (p q : Word) : encode (missChunk p q) = missBytes p q := by
  unfold missChunk missBytes delta
  by_cases ha : alpha p = alpha q
  · rw [if_pos ha, if_neg (not_not.2 ha)]
    simp only [← wf_diff_iff, ← wf_luma_iff]
    split
    next hd => exact encode_diff_eq hd
    next =>
      split
      next hl => exact encode_luma_eq hl
      next => rfl
  · rw [if_neg ha, if_pos ha]
    rfl

theorem toNat_run_add_one {r : BitVec 6} (h : r.toNat ≤ 61) : (r + 1).toNat = r.toNat + 1 := by bv_omega

/-- R83, R84: the byte written for a pixel equal to the one before, if the run closes. -/
theorem chosenBytes_repeated {s : State} (hp : s.px = s.pxPrev) (hr : s.run.toNat ≤ 61) :
    chosenBytes s = if RunCloses s then [runByte (s.run.toNat + 1)] else [] := by
  rw [chosenBytes, if_pos hp, toNat_run_add_one hr, encode_run_eq (by omega)]

/-- R83 to R90: the bytes written for a changed pixel, by the rules' formulas: the open run's, then the chunk's. -/
theorem chosenBytes_changed {s : State} (hp : s.px ≠ s.pxPrev) (hr : s.run.toNat ≤ 62) :
    chosenBytes s = (if s.run = 0 then [] else [runByte s.run.toNat]) ++
      (if s.cacheRead (pixelHash s.px) = s.px then [BitVec.ofNat 8 (pixelHash s.px).toNat]
        else missBytes s.px s.pxPrev) := by
  rw [chosenBytes, if_neg hp, encode_run_eq (by omega), changedChunk, apply_ite encode, encode_index_eq, encode_missChunk]

/-! ### What DST reads after a step -/

/-- Bytes written where there is room are read back, and every other byte is as before. -/
theorem dstWritten_of_eq {s t : State} {a : Nat} {bs : List Byte} (hd : s.dst.wf = true)
    (room : a + bs.length ≤ Config.addressSpace) (h : t.dst = s.dst.setBytes a bs) : DstWritten s t a bs := by
  intro x
  rw [h]
  exact DstMemory.get_setBytes hd room x

/-! ### E_HDR and E_END -/

/-- Settles O23: the header's bytes are those of the rule, and nothing else is set. -/
theorem encodeHeaderStep : Obligations.EncodeHeaderStep := by
  intro s hi hf hd
  have hstep := (coreStep_eHdr hf).trans (encodeHeader_eq s)
  exact ⟨_, (step_core hi).trans hstep, dstWritten_of_eq hd (show 14 ≤ Config.addressSpace by decide) rfl,
    rfl, rfl, rfl, rfl, rfl, rfl, rfl, fun _ => rfl, coreStep_frame hstep⟩

/-- Settles O26: the end marker where `wp` stands, and nothing else but `wp` and FSM is set. -/
theorem encodeEndStep : Obligations.EncodeEndStep := by
  intro s hi hf hd room
  have hstep := (coreStep_eEnd hf).trans (encodeEnd_room room)
  refine ⟨fun hinv => ?_, _, (step_core hi).trans hstep, dstWritten_of_eq hd room rfl, rfl, rfl, rfl, rfl, rfl, rfl,
    rfl, fun _ => rfl, coreStep_frame hstep⟩
  obtain ⟨-, -, -, -, hend, -⟩ := hinv
  obtain ⟨-, -, -, hrun⟩ := hend hf
  exact hrun

/-! ### E_PIX -/

/-- What the step in E_PIX answers, once the choice for its pixel is known (R83). -/
theorem coreStep_of_encodeChoose {s u : State} (hf : s.fsm = .ePix)
    (hr : s.rp.toNat + unitBytes s.ch ≤ Config.addressSpace) (hu : encodeChoose (takeUnit s) = .next u) :
    coreStep s = .next (encodeAdvance u) := by
  rw [coreStep_ePix hf, encodePixel, if_pos hr, hu, andThen_next]

/-- After the last pixel E_END follows, else E_PIX goes on (R83). -/
theorem fsm_afterPixel {s : State} (hf : s.fsm = .ePix) :
    (encodeAdvance (chosen (takeUnit s))).fsm = if s.i + 1 = s.n then .eEnd else .ePix := hf ▸ rfl

theorem cacheRead_congr {s t : State} (h : t.cache = s.cache) (k : Slot) : t.cacheRead k = s.cacheRead k := by
  rw [State.cacheRead, h]
  rfl

/-- R83, R84: when the run is written, on exact integers. -/
theorem runCloses_iff {s : State} (h : s.run.toNat ≤ 61) :
    RunCloses s ↔ s.run.toNat + 1 = 62 ∨ s.i.toNat + 1 = s.n.toNat :=
  or_congr (by rw [← BitVec.toNat_inj, toNat_run_add_one h]; rfl) decide_eq_true_iff

/-- Settles O24: the run closes or stays open, and accordingly its byte is written or nothing is. -/
theorem encodeRepeatedPixelStep : Obligations.EncodeRepeatedPixelStep := by
  intro s hi hf hd hrun hr room hp
  have hstep := coreStep_of_encodeChoose hf hr ((if_pos hp).trans (repeatPixel_room hp room))
  have hcache : chosenCache (takeUnit s) = s.cache := if_pos hp
  refine ⟨_, (step_core hi).trans hstep, hp, hp, rfl, rfl, fsm_afterPixel hf, cacheRead_congr hcache,
    coreStep_frame hstep, ?_⟩
  split
  next hc =>
    have hclose : RunCloses (takeUnit s) := (runCloses_iff hrun).2 hc
    have hbytes : chosenBytes (takeUnit s) = [runByte (s.run.toNat + 1)] :=
      (chosenBytes_repeated (s := takeUnit s) hp hrun).trans (if_pos hclose)
    have hopen : chosenRun (takeUnit s) = 0 := if_neg fun h => h.2 hclose
    rw [chosen, hbytes]
    exact ⟨hopen, dstWritten_of_eq hd room rfl, rfl⟩
  next hc =>
    have hclose : ¬ RunCloses (takeUnit s) := mt (runCloses_iff hrun).1 hc
    have hbytes : chosenBytes (takeUnit s) = [] := (chosenBytes_repeated (s := takeUnit s) hp hrun).trans (if_neg hclose)
    have hopen : chosenRun (takeUnit s) = s.run + 1 := if_pos ⟨hp, hclose⟩
    rw [chosen, hbytes, hopen]
    exact ⟨toNat_run_add_one hrun, dstWritten_of_eq hd s.wp.isLt.le rfl, BitVec.add_zero _⟩

/-- Settles O25: the bytes are those of the formulas, and hit or miss the pixel is in its slot afterwards; on a hit it was
there before. -/
theorem encodeChangedPixelStep : Obligations.EncodeChangedPixelStep := by
  intro s hi hf hd hrun hr room p hp bytes
  have hstep := coreStep_of_encodeChoose hf hr (encodeChoose_room (s := takeUnit s) room)
  have hbytes : chosenBytes (takeUnit s) = bytes := chosenBytes_changed hp hrun
  have hlen : bytes.length ≤ 6 := hbytes ▸ length_chosenBytes_le_six (takeUnit s)
  have hcache : chosenCache (takeUnit s) = ((takeUnit s).cacheWrite (pixelHash p) p).cache := if_neg hp
  have hopen : chosenRun (takeUnit s) = 0 := if_neg fun h => hp h.1
  refine ⟨_, (step_core hi).trans hstep, rfl, rfl, rfl, rfl, fsm_afterPixel hf, hopen, coreStep_frame hstep, ?_, ?_, ?_⟩
  · exact dstWritten_of_eq hd (by omega) (by rw [← hbytes]; rfl)
  · rw [← hbytes]; rfl
  · have stored : CacheStored s (encodeAdvance (chosen (takeUnit s))) p := fun k =>
      (cacheRead_congr hcache k).trans (cacheRead_cacheWrite (takeUnit s) (pixelHash p) k p)
    split
    next hit =>
      intro k
      rw [stored k]
      split
      next hk => rw [hk, hit]
      · rfl
    · exact stored

end Sys2Proof.Proofs.EncodeSteps
end

section
/-! PROOF. The encoder's chunk for a pixel, run by the decoder (O27), and the encode start (O28). -/

namespace Sys2Proof.Proofs.EncodeChoice

open Sys2Proof.Machine Sys2Proof.Safety Sys2Proof.Proofs.Pixels Sys2Proof.Proofs.Registers

/-! ### The chosen chunk in the decoder -/

/-- Moving each lane by its signed difference, alpha being equal, gives the pixel (R74, R75). -/
theorem shiftPixel_delta {p q : Word} (ha : alpha p = alpha q) :
    shiftPixel q (delta (red p) (red q)) (delta (green p) (green q)) (delta (blue p) (blue q)) = p := by
  rw [shiftPixel, moved_delta, moved_delta, moved_delta, ← ha, pack_channels]

/-- The chunk of a pixel that missed the cache, run where the previous pixel is the encoder's, makes that pixel the current
one and stores it (R98, R99, R101, R102). -/
theorem exec_missChunk (p : Word) (d : State) : ∃ len, exec (missChunk p d.px) d = storingChunk len p d := by
  unfold missChunk
  by_cases ha : alpha p = alpha d.px
  · rw [if_pos ha]
    split
    · exact ⟨1, congrArg (storingChunk 1 · d) (shiftPixel_delta ha)⟩
    · split
      · refine ⟨2, ?_⟩
        rw [exec, execLuma, add_sub_cancel, add_sub_cancel, shiftPixel_delta ha]
      · refine ⟨4, ?_⟩
        rw [exec, execRgb, ← ha, pack_channels]
  · rw [if_neg ha]
    exact ⟨5, congrArg (storingChunk 5 · d) (pack_channels p)⟩

/-- Settles O27: on a hit the slot gives the pixel, on a miss the chunk stores it. -/
theorem chosenChunkGivesThePixelBack : Obligations.ChosenChunkGivesThePixelBack := by
  intro p d room
  split
  next hit => exact ⟨_, exec_room room _, hit, hit⟩
  next =>
    obtain ⟨len, hexec⟩ := exec_missChunk p d
    refine ⟨_, hexec.trans (storingChunk_room room), rfl, ?_⟩
    exact (cacheRead_cacheWrite (takeChunk len p d) (pixelHash p) (pixelHash p) p).trans (if_pos rfl)

/-! ### The encode start -/

/-- What an accepted encode start leaves (R34). -/
theorem initialised_encodeAccept (s : State) : Initialised (encodeAccept s) := by
  refine ⟨fun k => ?_, rfl, rfl, rfl, rfl, rfl, rfl⟩
  exact Vector.getElem_replicate k.isLt

/-- Settles O28: the checks of R81 in their order, then what an accepted start sets. -/
theorem encodeStart : Obligations.EncodeStart := by
  intro s v es hi hb hop
  refine ⟨_, step_encodeStart hi hb hop, ?_⟩
  split
  next h0 => exact if_pos h0
  next h0 =>
    split
    next hv => exact (if_neg h0).trans (if_pos (Bool.eq_false_iff.2 (mt headerFieldsValid_iff.1 hv)))
    next hv =>
      have legal := not_not.1 hv
      have valid : headerFieldsValid s.width s.height s.channels s.colorspace ≠ false :=
        ne_false_of_eq_true (headerFieldsValid_iff.2 legal)
      split
      next hlen => exact (if_neg h0).trans ((if_neg valid).trans (if_pos hlen))
      next hlen =>
        obtain ⟨-, -, -, -, hmax⟩ := legal
        rw [show Machine.encodeStart { s with inbox := es } = encodeAccept { s with inbox := es } from
          (if_neg h0).trans ((if_neg valid).trans (if_neg hlen))]
        exact ⟨rfl, pixelCount_toNat hmax, rfl, rfl, initialised_encodeAccept _, rfl, rfl, rfl, rfl, endOfChunks_add,
          rfl, rfl, rfl, rfl, rfl, rfl, rfl⟩

end Sys2Proof.Proofs.EncodeChoice
end

section
/-! PROOF. The fetch of a chunk (R95): the chunk at `rp` is the one whose bytes SRC holds there (O11). -/

namespace Sys2Proof.Proofs.Fetch

open Sys2Proof.Machine Sys2Proof.Safety Sys2Proof.Proofs.Encoding

/-! ### The bytes a memory holds -/

/-- The memory holds these bytes at ascending addresses from `a`. -/
def Holds (m : Memory) (a : Nat) (bs : List Byte) : Prop := m.getBytes a bs.length = bs

theorem getBytes_add (m : Memory) (a j k : Nat) : m.getBytes a (j + k) = m.getBytes a j ++ m.getBytes (a + j) k := by
  induction j generalizing a with
  | zero => rw [Nat.zero_add]; rfl
  | succ j ih =>
    rw [Nat.add_right_comm, Memory.getBytes, Memory.getBytes, ih, List.cons_append, Nat.add_right_comm,
      Nat.add_assoc]

/-- Two lists of bytes are held one after the other. -/
theorem holds_append {m : Memory} {a : Nat} {bs cs : List Byte} :
    Holds m a (bs ++ cs) ↔ Holds m a bs ∧ Holds m (a + bs.length) cs := by
  rw [Holds, List.length_append, getBytes_add]
  exact ⟨(List.append_inj · (m.getBytes_length a bs.length)), fun ⟨hb, hc⟩ => congrArg₂ (· ++ ·) hb hc⟩

/-- Bytes read one by one are held. -/
theorem holds_of_get {m : Memory} {a : Nat} {bs : List Byte} (h : ∀ k, k < bs.length → m.get (a + k) = bs.getD k 0) :
    Holds m a bs := by
  induction bs generalizing a with
  | nil => rfl
  | cons b bs ih =>
    have tail : Holds m (a + 1) bs := ih fun k hk => by
      rw [Nat.add_assoc, Nat.add_comm 1]
      exact h (k + 1) (Nat.succ_lt_succ hk)
    exact congrArg₂ List.cons (h 0 (Nat.zero_lt_succ _)) tail

/-- What has been written is held. -/
theorem holds_setBytes {m : Memory} {a : Nat} {bs : List Byte} (hm : m.wf = true)
    (room : a + bs.length ≤ Config.addressSpace) : Holds (m.setBytes a bs) a bs :=
  holds_of_get fun k hk => by rw [Memory.get_setBytes hm room, if_pos (by omega), Nat.add_sub_cancel_left]

/-- A pointer that stays inside the address space does not wrap. -/
theorem toNat_add_ofNat {x : Word} {k : Nat} (h : x.toNat + k < Config.addressSpace) :
    (x + BitVec.ofNat 32 k).toNat = x.toNat + k := by
  simp only [Config.addressSpace] at h
  rw [BitVec.toNat_add, BitVec.toNat_ofNat]
  omega

/-! ### The chunk at `rp` -/

/-- The first byte read gives the class of the chunk (R56). -/
theorem chunkClass_of_reads {b1 : Byte} {bs rest : List Byte} {i : Instr} (h : Reads (b1 :: bs) i rest) :
    i.chunkClass = classOf b1 := by
  cases h with
  | rgb hc | rgba hc | index hc | diff hc | luma hc | run hc => exact hc.symm

/-- Inside SRC's address space the chunk's bytes start with the byte at `rp` (R57, R95). -/
theorem chunkBytes_eq_cons {s : State} : ∃ bs, chunkBytes s = s.src.get s.rp.toNat :: bs := by
  have hpos : 0 < min (classOf (s.src.get s.rp.toNat)).length (Config.addressSpace - s.rp.toNat) := by
    refine Nat.lt_min.2 ⟨?_, Nat.sub_pos_of_lt s.rp.isLt⟩
    cases classOf (s.src.get s.rp.toNat) <;> decide
  obtain ⟨k, hk⟩ := Nat.exists_eq_add_of_lt hpos
  exact ⟨s.src.getBytes (s.rp.toNat + 1) (0 + k), congrArg (s.src.getBytes s.rp.toNat) hk⟩

/-- A chunk that has been fetched has the class, and so the length, of the byte at `rp` (R56, R57). -/
theorem chunkClass_of_fetchChunk {s : State} {i : Instr} (h : fetchChunk s = .ok i) :
    i.chunkClass = classOf (s.src.get s.rp.toNat) := by
  obtain ⟨rest, hdec⟩ := fetchChunk_ok h
  obtain ⟨bs, hbs⟩ := chunkBytes_eq_cons (s := s)
  rw [hbs] at hdec
  exact chunkClass_of_reads (decode_eq_ok_iff.1 hdec)

theorem fetchChunk_of_decode {s : State} {i : Instr} {rest : List Byte} (h : decode (chunkBytes s) = .ok (i, rest)) :
    fetchChunk s = .ok i := by
  simp only [fetchChunk, h]

/-- A well-formed chunk whose bytes SRC holds at `rp` is fetched there. -/
theorem fetchChunk_of_holds {s : State} {i : Instr} (hwf : i.wf = true)
    (room : s.rp.toNat + i.length ≤ Config.addressSpace) (h : Holds s.src s.rp.toNat (encode i)) :
    fetchChunk s = .ok i := by
  have hdec : decode (encode i) = .ok (i, []) := List.append_nil (encode i) ▸ decodeInvertsEncode i [] hwf
  rw [Holds, encode_length] at h
  have hclass : i.chunkClass = classOf (s.src.get s.rp.toNat) := by
    obtain ⟨k, hk⟩ := Nat.exists_eq_add_of_lt (instr_length_pos i)
    rw [← h, hk] at hdec
    exact chunkClass_of_reads (decode_eq_ok_iff.1 hdec)
  have hbytes : chunkBytes s = encode i := by
    rw [chunkBytes, ← hclass, ← h, ← Instr.length, Nat.min_eq_left (Nat.le_sub_of_add_le' room)]
  exact fetchChunk_of_decode (hbytes ▸ hdec)

/-- Where SRC holds all of a chunk, one is fetched, whatever its bytes are (R65). -/
theorem exists_fetchChunk {s : State}
    (room : s.rp.toNat + (classOf (s.src.get s.rp.toNat)).length ≤ Config.addressSpace) :
    ∃ i, fetchChunk s = .ok i := by
  obtain ⟨bs, hbs⟩ := chunkBytes_eq_cons (s := s)
  have hlen : (chunkBytes s).length = (classOf (s.src.get s.rp.toNat)).length := by
    rw [chunkBytes, Memory.getBytes_length, Nat.min_eq_left (Nat.le_sub_of_add_le' room)]
  obtain ⟨i, hi, -⟩ := exists_reads (b1 := s.src.get s.rp.toNat) (rest := bs) (by rw [← hlen, hbs]; rfl)
  exact ⟨i, fetchChunk_of_decode (hbs ▸ hi.decode_eq)⟩

/-- Where a byte of the chunk would lie outside, the fetch fails (R35; log entry 11). -/
theorem fetchChunk_outside {s : State}
    (h : Config.addressSpace < s.rp.toNat + (classOf (s.src.get s.rp.toNat)).length) :
    fetchChunk s = .error .srcAddress := by
  cases hf : fetchChunk s with
  | error f => rw [fetchChunk_error hf]
  | ok i =>
    obtain ⟨rest, hdec⟩ := fetchChunk_ok hf
    obtain ⟨bs, hbs⟩ := chunkBytes_eq_cons (s := s)
    have hlen : bs.length + 1 ≤ Config.addressSpace - s.rp.toNat := by
      have := congrArg List.length hbs
      rw [chunkBytes, Memory.getBytes_length, List.length_cons] at this
      omega
    rw [hbs] at hdec
    have := (decode_eq_ok_iff.1 hdec).length_le
    omega

/-! ### The step that fetches -/

/-- The step of a machine that is about to fetch runs the chunk at `rp` (R95). -/
theorem step_of_fetchReady {s : State} (h : FetchReady s) : step s = runChunk s := by
  obtain ⟨hi, hf, hr, hrp⟩ := h
  rw [step_core hi, coreStep_dPix hf, decodePixel_fetch hr hrp]

/-- Bytes of SRC that start with a chunk are run as that chunk. -/
theorem step_of_reads {s : State} (h : FetchReady s) {m : Nat} (room : s.rp.toNat + m ≤ Config.addressSpace) {i : Instr}
    {rest : List Byte} (hr : Reads (s.src.getBytes s.rp.toNat m) i rest) : step s = exec i s := by
  have hbytes := hr.encode_append
  have hlen : i.length + rest.length = m := by
    rw [← encode_length, ← List.length_append, hbytes, Memory.getBytes_length]
  have held : Holds s.src s.rp.toNat (encode i ++ rest) := by
    rw [Holds, List.length_append, encode_length, hlen, hbytes]
  rw [step_of_fetchReady h, runChunk_ok (fetchChunk_of_holds hr.wf (by omega) (holds_append.1 held).1)]

/-- Settles O11: the bytes at `rp` start with the bytes of the chunk they decode to, and those are what is fetched; a chunk
that reaches outside is not. -/
theorem stepRunsTheDecodedChunk : Obligations.StepRunsTheDecodedChunk := by
  refine fun s h => ⟨fun m i rest room hdec => step_of_reads h room (decode_eq_ok_iff.1 hdec), fun outside => ?_⟩
  rw [step_of_fetchReady h, runChunk, fetchChunk_outside outside]

end Sys2Proof.Proofs.Fetch
end

section
/-! PROOF. The chunks, one at a time: what each does to the pixel, the cache and the pointers, and when it is run
(O12 to O17, O19, O20). -/

namespace Sys2Proof.Proofs.Chunks

open Sys2Proof.Machine Sys2Proof.Safety Sys2Proof.Proofs.Encoding Sys2Proof.Proofs.EncodeSteps Sys2Proof.Proofs.Fetch

/-! ### The end of a D_PIX step -/

section
variable {s : State} (hd : s.dst.wf = true) (room : EmitRoom s)
include hd room

/-- Whatever a D_PIX step has made of `rp`, the run, `px` and the cache, retiring the pixel emits `px` and changes nothing
else (R95, R105). -/
theorem pixelRetired_retired (q : Word) (r : BitVec 6) (p : Word) (c : Vector Word 64) :
    PixelRetired s (retired { s with rp := q, run := r, px := p, cache := c }) p ∧
      DecodeFrame s (retired { s with rp := q, run := r, px := p, cache := c }) := by
  rw [emitRoom_iff, ← pixelBytes_length p] at room
  exact ⟨⟨rfl, dstWritten_of_eq hd room rfl, rfl, rfl, rfl⟩,
    ⟨rfl, rfl, rfl, rfl, rfl, rfl, rfl⟩, ⟨rfl, rfl, rfl, rfl⟩, rfl, rfl, rfl, rfl, rfl⟩

/-- A chunk that writes the cache: the pixel is emitted and stored, and `rp` moves past the chunk (R95, R104). -/
theorem storingChunk_spec (len : Nat) (p : Word) :
    ∃ t, storingChunk len p s = .next t ∧ PixelRetired s t p ∧ t.rp = s.rp + BitVec.ofNat 32 len ∧ t.run = s.run ∧
      CacheStored s t p ∧ DecodeFrame s t := by
  obtain ⟨hret, hframe⟩ := pixelRetired_retired hd room (s.rp + BitVec.ofNat 32 len) s.run p
    (s.cacheWrite (pixelHash p) p).cache
  exact ⟨_, storingChunk_room room, hret, rfl, rfl, fun k => cacheRead_cacheWrite s (pixelHash p) k p, hframe⟩

/-- A pixel retired as it stands: it is emitted again, and nothing else happens. -/
theorem retirePixel_spec : ∃ t, retirePixel s = .next t ∧ PixelRetired s t s.px ∧ t.rp = s.rp ∧ t.run = s.run ∧
    SameCache s t ∧ DecodeFrame s t := by
  obtain ⟨hret, hframe⟩ := pixelRetired_retired hd room s.rp s.run s.px s.cache
  exact ⟨_, retirePixel_room room, hret, rfl, rfl, fun _ => rfl, hframe⟩

end

/-! ### Each class of chunk -/

/-- Settles O12: RGB stores its pixel, and a first byte 0xFE with three more is read as RGB. -/
theorem rgbChunk : Obligations.RgbChunk := by
  refine ⟨fun r g b s hd room => storingChunk_spec hd room 4 _, fun s h hb hroom => ?_⟩
  exact step_of_reads h (m := 4) hroom (.rgb (hb ▸ rfl) _ _ _ [])

/-- Settles O13: RGBA stores its pixel, and a first byte 0xFF with four more is read as RGBA. -/
theorem rgbaChunk : Obligations.RgbaChunk := by
  refine ⟨fun r g b a s hd room => storingChunk_spec hd room 5 _, fun s h hb hroom => ?_⟩
  exact step_of_reads h (m := 5) hroom (.rgba (hb ▸ rfl) _ _ _ _ [])

theorem classOf_of_tag_index : ∀ {b : Byte}, b.extractLsb' 6 2 = 0b00#2 → classOf b = .index := by decide
theorem classOf_of_tag_diff : ∀ {b : Byte}, b.extractLsb' 6 2 = 0b01#2 → classOf b = .diff := by decide
theorem classOf_of_tag_luma : ∀ {b : Byte}, b.extractLsb' 6 2 = 0b10#2 → classOf b = .luma := by decide
theorem classOf_of_tag_run : ∀ {b : Byte}, b.extractLsb' 6 2 = 0b11#2 → b ≠ 0xFE#8 → b ≠ 0xFF#8 → classOf b = .run := by
  decide

/-- A first byte alone lies inside SRC's address space. -/
theorem rp_add_one_le (s : State) : s.rp.toNat + 1 ≤ Config.addressSpace := s.rp.isLt

/-- Settles O14: INDEX emits the slot's pixel without writing the cache. -/
theorem indexChunk : Obligations.IndexChunk := by
  refine ⟨fun k s hd room => ?_, fun s h hb => ?_⟩
  · obtain ⟨hret, hframe⟩ := pixelRetired_retired hd room (s.rp + 1) s.run (s.cacheRead k) s.cache
    exact ⟨_, exec_room room _, hret, rfl, rfl, fun _ => rfl, hframe⟩
  · exact step_of_reads h (m := 1) (rp_add_one_le s) (.index (classOf_of_tag_index hb) [])

/-- Settles O15: DIFF stores the moved pixel; its fields are read with a bias of 2. -/
theorem diffChunk : Obligations.DiffChunk := by
  refine ⟨fun dr dg db s hd room => storingChunk_spec hd room 1 _, fun s h hb => ?_⟩
  exact step_of_reads h (m := 1) (rp_add_one_le s) (.diff (classOf_of_tag_diff hb) [])

/-- Settles O16: LUMA stores the moved pixel; its fields are read with biases of 32 and 8. -/
theorem lumaChunk : Obligations.LumaChunk := by
  refine ⟨fun dg drg dbg s hd room => storingChunk_spec hd room 2 _, fun s h hb hroom => ?_⟩
  exact step_of_reads h (m := 2) hroom (.luma (classOf_of_tag_luma hb) _ [])

/-- RUN stores the pixel it keeps and loads the run with the repeats that are left (R103). -/
theorem execRun_spec {m : Nat} {s : State} (hwf : (Instr.run m).wf = true) (hd : s.dst.wf = true) (room : EmitRoom s) :
    ∃ t, exec (.run m) s = .next t ∧ PixelRetired s t s.px ∧ t.rp = s.rp + 1 ∧ t.run.toNat + 1 = m ∧
      CacheStored s t s.px ∧ DecodeFrame s t := by
  obtain ⟨h1, h62⟩ : 1 ≤ m ∧ m ≤ 62 := of_decide_eq_true hwf
  obtain ⟨t, ht, hret, hrp, hrun, hcache, hframe⟩ :=
    storingChunk_spec (s := { s with run := BitVec.ofNat 6 (m - 1) }) hd room 1 s.px
  refine ⟨t, ht, hret, hrp, ?_, hcache, hframe⟩
  rw [hrun, BitVec.toNat_ofNat]
  omega

/-- Settles O17: RUN loads the repeats, and a first byte 0xC0 to 0xFD is read as RUN. -/
theorem runChunk : Obligations.RunChunk := by
  refine ⟨fun m s hwf hd room => execRun_spec hwf hd room, fun s h hb hfe hff => ?_⟩
  exact step_of_reads h (m := 1) (rp_add_one_le s) (.run (classOf_of_tag_run hb hfe hff) [])

/-! ### The steps that read nothing -/

/-- Settles O19: the pixel is retired with the run one less. -/
theorem runContinuation : Obligations.RunContinuation := by
  intro s hi hf hr hd room
  obtain ⟨t, ht, hret, hrp, hrun, hcache, hframe⟩ := retirePixel_spec (s := { s with run := s.run - 1 }) hd room
  have hstep : step s = retirePixel { s with run := s.run - 1 } := by
    rw [step_core hi, coreStep_dPix hf, decodePixel_continue hr, continueRun]
  refine ⟨t, hstep.trans ht, ?_, hret, hrp, hcache, hframe⟩
  have hpos : s.run.toNat ≠ 0 := fun h => hr (BitVec.eq_of_toNat_eq h)
  rw [hrun]
  bv_omega

/-- Settles O20: with no run open and no chunk left, the pixel is retired as it stands. -/
theorem exhaustedInputRepeatsThePixel : Obligations.ExhaustedInputRepeatsThePixel := by
  intro s hi hf hr hrp hd room
  obtain ⟨t, ht, hret, hrp', hrun, hcache, hframe⟩ := retirePixel_spec hd room
  have hstep : step s = retirePixel s := by
    rw [step_core hi, coreStep_dPix hf, decodePixel_exhausted hr (Nat.not_lt.2 hrp)]
  exact ⟨t, hstep.trans ht, hrun.trans hr, hret, hrp', hcache, hframe⟩

end Sys2Proof.Proofs.Chunks
end

section
/-! PROOF. The run of a decode: how far `rp` moves (O48), and that DONE is reached after exactly the pixels left (O49). -/

namespace Sys2Proof.Proofs.DecodeRun

open Sys2Proof.Machine Sys2Proof.Safety Sys2Proof.Proofs.Invariant Sys2Proof.Proofs.Latches Sys2Proof.Proofs.Bounds
  Sys2Proof.Proofs.Runs Sys2Proof.Proofs.EncodeRun Sys2Proof.Proofs.Fetch

/-! ### The read pointer -/

theorem chunkLength_le_five (c : ChunkClass) : c.length ≤ 5 := by cases c <;> decide

/-- A chunk that starts below CEND ends at CEND + 4 at most (R106), inside SRC_LEN and so inside SRC's address space. -/
theorem chunk_end_le {s : State} (h : DecodeProgress s) (hrp : s.rp.toNat < s.cend.toNat) :
    s.rp.toNat + (classOf (s.src.get s.rp.toNat)).length ≤ s.cend.toNat + 4 ∧
      s.cend.toNat + 8 < Config.addressSpace := by
  obtain ⟨-, -, -, -, -, -, hcend, -⟩ := h
  have hlen := chunkLength_le_five (classOf (s.src.get s.rp.toNat))
  exact ⟨by omega, hcend ▸ s.srcLen.isLt⟩

/-- A chunk's step moves `rp` by the length that its first byte gives (R57, R106). -/
theorem rp_of_runChunk {s t : State} (h : DecodeProgress s) (hrp : s.rp.toNat < s.cend.toNat)
    (ht : runChunk s = .next t) : t.rp.toNat = s.rp.toNat + (classOf (s.src.get s.rp.toNat)).length := by
  obtain ⟨i, hi, hx⟩ := runChunk_next ht
  obtain ⟨-, p, c, rfl⟩ := exec_next hx
  have hlen : i.length = (classOf (s.src.get s.rp.toNat)).length :=
    congrArg ChunkClass.length (chunkClass_of_fetchChunk hi)
  obtain ⟨hend, hcend⟩ := chunk_end_le h hrp
  show (s.rp + BitVec.ofNat 32 i.length).toNat = _
  rw [hlen, toNat_add_ofNat (by omega)]

/-- Settles O48: only a step that runs a chunk moves `rp`, and the chunk started below CEND. -/
theorem readPointerMovesForward : Obligations.ReadPointerMovesForward := by
  intro s t hinv hi hf ht
  obtain ⟨-, -, -, -, -, hdec⟩ := hinv
  have hprog := hdec hf
  obtain ⟨-, -, -, -, -, -, -, -, -, hbound, -⟩ := id hprog
  rw [step_core hi, coreStep_dPix hf] at ht
  by_cases hr : s.run = 0
  · by_cases hrp : s.rp.toNat < s.cend.toNat
    · rw [decodePixel_fetch hr hrp] at ht
      have hmove := rp_of_runChunk hprog hrp ht
      rw [if_pos ⟨hr, hrp⟩]
      exact ⟨hmove, hmove ▸ (chunk_end_le hprog hrp).1⟩
    · rw [decodePixel_exhausted hr hrp] at ht
      obtain ⟨-, rfl⟩ := retirePixel_next ht
      rw [if_neg fun h => hrp h.2]
      exact ⟨rfl, hbound⟩
  · rw [decodePixel_continue hr] at ht
    obtain ⟨-, rfl⟩ := retirePixel_next ht
    rw [if_neg fun h => hr h.1]
    exact ⟨rfl, hbound⟩

/-! ### Every step answers -/

/-- There is room for every pixel of a decode (R45). -/
theorem emitRoom_of_inv {s : State} (h : Inv s) (hf : s.fsm = .dPix) : EmitRoom s := by
  rw [emitRoom_iff]
  exact (room_of_inv h (busy_of_fsm hf rfl) ((unitBytes_le_four s.oc).trans (by decide))).le

/-- The step in D_PIX answers a next state from the invariant, whatever the stream holds (R107). -/
theorem exists_decodePixel {s : State} (h : Inv s) (hf : s.fsm = .dPix) : ∃ t, decodePixel s = .next t := by
  have room := emitRoom_of_inv h hf
  obtain ⟨-, -, -, -, -, hdec⟩ := h
  by_cases hr : s.run = 0
  · by_cases hrp : s.rp.toNat < s.cend.toNat
    · obtain ⟨hend, hcend⟩ := chunk_end_le (hdec hf) hrp
      obtain ⟨i, hi⟩ := exists_fetchChunk (s := s) (by omega)
      rw [decodePixel_fetch hr hrp, runChunk_ok hi]
      exact ⟨_, exec_room room i⟩
    · rw [decodePixel_exhausted hr hrp]
      exact ⟨_, retirePixel_room room⟩
  · rw [decodePixel_continue hr]
    exact ⟨_, retirePixel_room (s := { s with run := s.run - 1 }) room⟩

/-- One step in D_PIX, from the invariant: it answers, with one pixel more, in DONE after the last (R95, R107). -/
theorem step_dPix {s : State} (h : Inv s) (hi : s.inbox = []) (hf : s.fsm = .dPix) :
    ∃ t, step s = .next t ∧ Inv t ∧ EncodeFrame s t ∧ t.i = s.i + 1 ∧ t.wp = s.wp + s.oc.setWidth 32 ∧
      t.fsm = if s.i + 1 = s.n then .done else .dPix := by
  obtain ⟨t, ht⟩ := exists_decodePixel h hf
  have hcore := (coreStep_dPix hf).trans ht
  obtain ⟨-, p, c, r, q, rfl, -⟩ := decodePixel_next ht
  exact ⟨_, (step_core hi).trans hcore, inv_coreStep h hcore, coreStep_frame hcore, rfl, rfl, hf ▸ rfl⟩

/-- As long as pixels are left, the run stays in D_PIX, one pixel on at each step. -/
theorem stepN_dPix {k : Nat} {s : State} (h : Inv s) (hi : s.inbox = []) (hf : s.fsm = .dPix)
    (hk : s.i.toNat + k < s.n.toNat) :
    ∃ u, stepN k s = .next u ∧ Inv u ∧ EncodeFrame s u ∧ u.fsm = .dPix ∧ u.i.toNat = s.i.toNat + k := by
  induction k generalizing s with
  | zero => exact ⟨s, rfl, h, encodeFrame_update .., hf, rfl⟩
  | succ k ih =>
    obtain ⟨t, ht, hinv, hframe, hit, -, hft⟩ := step_dPix h hi hf
    obtain ⟨-, ⟨hn, -⟩, -, hin, -⟩ := id hframe
    have hi1 : (s.i + 1).toNat = s.i.toNat + 1 := toNat_add_one (n := s.n) (by omega)
    have hmore : s.i + 1 ≠ s.n := fun hlast => by rw [← hlast, hi1] at hk; omega
    obtain ⟨u, hu, hinv', hframe', hfu, hiu⟩ :=
      ih hinv (hin.trans hi) (hft.trans (if_neg hmore)) (by rw [hit, hn, hi1]; omega)
    exact ⟨u, (stepN_succ ht k).trans hu, hinv', encodeFrame_trans hframe hframe', hfu, by rw [hiu, hit, hi1]; omega⟩

/-- Settles O49: D_PIX for all pixels but one by induction, then the last step, whose `wp` the invariant before it gives. -/
theorem decodeReachesDone : Obligations.DecodeReachesDone := by
  intro s h hi hf
  refine ⟨?_, fun k hk => ?_⟩
  · have hlt : s.i.toNat < s.n.toNat := by
      obtain ⟨-, -, -, -, -, hdec⟩ := h
      obtain ⟨-, -, -, -, hlt, -⟩ := hdec hf
      exact hlt
    obtain ⟨u, hu, hinv, ⟨⟨herr, -⟩, ⟨hn, -, hoc, -⟩, -, hin, -⟩, hfu, hiu⟩ :=
      stepN_dPix (k := s.n.toNat - s.i.toNat - 1) h hi hf (by omega)
    obtain ⟨t, ht, -, ⟨⟨herr', -⟩, -⟩, hit, hwt, hft⟩ := step_dPix hinv (hin.trans hi) hfu
    obtain ⟨-, -, -, -, -, hdec⟩ := hinv
    have hprog := hdec hfu
    obtain ⟨-, -, -, -, hui, hwu, -⟩ := id hprog
    have hi1 : (u.i + 1).toNat = s.n.toNat := by rw [toNat_add_one hui, hiu]; omega
    have hlast : u.i + 1 = u.n := BitVec.eq_of_toNat_eq (by rw [hi1, hn])
    have run : stepN (s.n.toNat - s.i.toNat - 1 + 1) s = .next t := by rw [stepN_add, hu, andThen_next, stepN_one, ht]
    rw [Nat.sub_add_cancel (Nat.sub_pos_of_lt hlt)] at run
    refine ⟨t, run, hft.trans (if_pos hlast), herr'.trans herr, ?_, hit.trans (hlast.trans hn)⟩
    rw [hwt, toNat_add_channels hwu (oc_of_decodeProgress hprog) (hui.trans (n_lt_of_decodeProgress hprog)),
      ← toNat_add_one hui, hi1, hoc]
  · obtain ⟨u, hu, -, -, hfu, -⟩ := stepN_dPix (k := k) h hi hf (by omega)
    exact ⟨u, hu, hfu⟩

end Sys2Proof.Proofs.DecodeRun
end

section
/-! PROOF. The decode start (O29), and a table word placed where the next step fetches (O22). -/

namespace Sys2Proof.Proofs.DecodeStart

open Sys2Proof.Machine Sys2Proof.Safety Sys2Proof.Proofs.Pixels Sys2Proof.Proofs.Registers Sys2Proof.Proofs.Encoding
  Sys2Proof.Proofs.Fetch

/-! ### The header's bytes (R53, R54) -/

/-- Four bytes are the magic number where each is one of its bytes. -/
theorem be32_eq_magic_iff {b0 b1 b2 b3 : Byte} :
    be32 b0 b1 b2 b3 = Config.magic ↔ b0 = 0x71#8 ∧ b1 = 0x6F#8 ∧ b2 = 0x69#8 ∧ b3 = 0x66#8 := by
  constructor
  · intro h
    exact ⟨(red_pack b0 b1 b2 b3).symm.trans (congrArg red h), (green_pack b0 b1 b2 b3).symm.trans (congrArg green h),
      (blue_pack b0 b1 b2 b3).symm.trans (congrArg blue h), (alpha_pack b0 b1 b2 b3).symm.trans (congrArg alpha h)⟩
  · rintro ⟨rfl, rfl, rfl, rfl⟩
    rfl

/-- The decoder's check of a header, spelled out (R54, R94). -/
theorem headerValid_iff {b0 b1 b2 b3 : Byte} {w h : Word} {ch cs : Byte} :
    headerValid (be32 b0 b1 b2 b3) w h ch cs = true ↔
      b0 = 0x71#8 ∧ b1 = 0x6F#8 ∧ b2 = 0x69#8 ∧ b3 = 0x66#8 ∧ HeaderLegal w h ch cs := by
  rw [headerValid, Bool.and_eq_true, decide_eq_true_eq, be32_eq_magic_iff, headerFieldsValid_iff]
  simp only [and_assoc]

/-- A word is read back from its four bytes (R36, R37). -/
theorem getBe32_of_holds {m : Memory} {a : Nat} {v : Word} (h : Holds m a (wordBytes v)) : m.getBe32 a = v := by
  obtain ⟨h0, h1, h2, h3, -⟩ : m.get a = red v ∧ m.get (a + 1) = green v ∧ m.get (a + 1 + 1) = blue v ∧
      m.get (a + 1 + 1 + 1) = alpha v ∧ True := by
    simpa [Holds, wordBytes, Memory.getBytes, red, green, blue, alpha] using h
  show be32 (m.get a) (m.get (a + 1)) (m.get (a + 1 + 1)) (m.get (a + 1 + 1 + 1)) = v
  rw [h0, h1, h2, h3]
  exact pack_channels v

/-- A header is read back from its 14 bytes (R53). -/
theorem header_of_holds {m : Memory} {w h : Word} {ch cs : Byte} (hm : Holds m 0 (headerOf w h ch cs)) :
    m.getBe32 0 = Config.magic ∧ m.getBe32 4 = w ∧ m.getBe32 8 = h ∧ m.get 12 = ch ∧ m.get 13 = cs := by
  obtain ⟨hwords, hbytes⟩ := holds_append.1 hm
  obtain ⟨hwords, hh⟩ := holds_append.1 hwords
  obtain ⟨hmagic, hw⟩ := holds_append.1 hwords
  obtain ⟨hch, hcs⟩ : m.get 12 = ch ∧ m.get 13 = cs := by
    simpa [Holds, wordBytes, Memory.getBytes] using hbytes
  exact ⟨getBe32_of_holds hmagic, getBe32_of_holds hw, getBe32_of_holds hh, hch, hcs⟩

/-! ### The start -/

theorem desiredLegal_iff {d : Byte} : desiredLegal d = true ↔ d = 0#8 ∨ d = 3#8 ∨ d = 4#8 := by
  simp only [desiredLegal, Bool.or_eq_true, decide_eq_true_eq, or_assoc]

/-- A decode start while not BUSY is the step it takes (R12, R94). -/
theorem step_decodeStart {s : State} {v : Word} {es : List HostEvent} (hi : s.inbox = .regWrite 4 0 v :: es)
    (hb : s.busy = false) (hop : v.extractLsb' 0 2 = 0b10#2) :
    step s = .next (Machine.decodeStart { s with inbox := es }) := by
  have hctrl : regUpdate 0 v { s with inbox := es } = Machine.decodeStart { s with inbox := es } := by
    show ctrlWrite v _ = _
    simp [ctrlWrite, hop]
  exact (step_regWrite_not_busy hi rfl hb).trans (congrArg _ hctrl)

/-- What an accepted decode start leaves (R34). -/
theorem initialised_decodeAccept (w h : Word) (ch cs : Byte) (s : State) : Initialised (decodeAccept w h ch cs s) := by
  refine ⟨fun k => ?_, rfl, rfl, rfl, rfl, rfl, rfl⟩
  exact Vector.getElem_replicate k.isLt

/-- A start whose checks of R94 all pass is accepted. -/
theorem decodeStart_accepted {s : State} (hd : desiredLegal s.desiredChannels = true) (hl : 22 ≤ s.srcLen.toNat)
    (hv : headerValid (s.src.getBe32 0) (s.src.getBe32 4) (s.src.getBe32 8) (s.src.get 12) (s.src.get 13) = true) :
    Machine.decodeStart s =
      decodeAccept (s.src.getBe32 4) (s.src.getBe32 8) (s.src.get 12) (s.src.get 13) s := by
  have h0 : s.srcLen ≠ 0 := fun h => by rw [h] at hl; exact absurd hl (by decide)
  have hshort : ¬ s.srcLen.toNat < Config.minStream := Nat.not_lt.2 hl
  rw [Machine.decodeStart, if_neg (ne_false_of_eq_true hd), if_neg h0, if_neg hshort, if_neg (ne_false_of_eq_true hv)]

/-- So a start is accepted where SRC holds a legal header, which is the one taken (R53, R54). -/
theorem decodeStart_of_holds {s : State} {w h : Word} {ch cs : Byte} (hd : desiredLegal s.desiredChannels = true)
    (hl : 22 ≤ s.srcLen.toNat) (hv : headerFieldsValid w h ch cs = true) (held : Holds s.src 0 (headerOf w h ch cs)) :
    Machine.decodeStart s = decodeAccept w h ch cs s := by
  obtain ⟨hmagic, hw, hh, hch, hcs⟩ := header_of_holds held
  have valid : headerValid Config.magic w h ch cs = true := by rw [headerValid, hv, decide_eq_true rfl]; rfl
  have accepted := decodeStart_accepted (s := s) hd hl
  rw [hmagic, hw, hh, hch, hcs] at accepted
  exact accepted valid

@[simp] theorem decodeAccept_src (w h : Word) (ch cs : Byte) (s : State) : (decodeAccept w h ch cs s).src = s.src := rfl
@[simp] theorem decodeAccept_rp (w h : Word) (ch cs : Byte) (s : State) : (decodeAccept w h ch cs s).rp = 14 := rfl

/-- Settles O29: the checks of R94 in their order, then what an accepted start sets. -/
theorem decodeStart : Obligations.DecodeStart := by
  intro s v es hi hb hop w h ch cs
  refine ⟨_, step_decodeStart hi hb hop, ?_⟩
  split
  next hd => exact if_pos (Bool.eq_false_iff.2 (mt desiredLegal_iff.1 hd))
  next hd =>
    have legal := desiredLegal_iff.2 (not_not.1 hd)
    have pass := ne_false_of_eq_true legal
    split
    next h0 => exact (if_neg pass).trans (if_pos h0)
    next h0 =>
      split
      next hl => exact (if_neg pass).trans ((if_neg h0).trans (if_pos hl))
      next hl =>
        split
        next hv =>
          have invalid := Bool.eq_false_iff.2 (mt headerValid_iff.1 hv)
          exact (if_neg pass).trans ((if_neg h0).trans ((if_neg hl).trans (if_pos invalid)))
        next hv =>
          have valid := headerValid_iff.2 (not_not.1 hv)
          obtain ⟨-, -, -, -, -, -, -, -, hmax⟩ := not_not.1 hv
          rw [decodeStart_accepted (s := { s with inbox := es }) legal (Nat.not_lt.1 hl) valid]
          exact ⟨rfl, rfl, rfl, rfl, rfl, pixelCount_toNat hmax, outputChannels_legal legal ch,
            endOfChunks_add (Nat.le_trans (by decide) (Nat.not_lt.1 hl)), rfl, initialised_decodeAccept ..,
            rfl, rfl, rfl, rfl, rfl, rfl, rfl, rfl⟩

/-! ### A placed table word -/

/-- Where a word that decodes stands at `rp`, the step that fetches runs it. -/
theorem step_of_placed {s : State} (h : FetchReady s) {nbits w : Nat} {i : Instr}
    (room : s.rp.toNat + 5 ≤ Config.addressSpace) (held : Holds s.src s.rp.toNat (tableBytes nbits w))
    (hw : decodeTableWord nbits w = some i) : step s = exec i s := by
  unfold decodeTableWord at hw
  split at hw
  next rest hdec =>
    cases hw
    have hread := decode_eq_ok_iff.1 hdec
    rw [← show s.src.getBytes s.rp.toNat 5 = tableBytes nbits w from held] at hread
    exact step_of_reads h room hread
  · cases hw

/-- `fetchReady` is `FetchReady` with room for the longest chunk and its pixel. -/
theorem fetchReady_iff {s : State} : fetchReady s = true ↔
    FetchReady s ∧ s.rp.toNat + 5 ≤ Config.addressSpace ∧ s.wp.toNat + 4 ≤ Config.addressSpace := by
  simp only [fetchReady, Bool.and_eq_true, decide_eq_true_eq, FetchReady, and_assoc]

/-- The stream of one RGBA pixel whose only chunk is `bs` (R52). -/
def onePixelStream (bs : List Byte) : List Byte := headerOf 1 1 4 0 ++ bs ++ Config.endMarker

/-- The request to decode a stream of 27 bytes that stands in SRC. -/
def loaded (stream : List Byte) (s : State) : State :=
  { s with
    inbox := [], fsm := .idle, desiredChannels := 0, srcLen := 27, src := s.src.setBytes 0 stream }

@[simp] theorem loaded_src (stream : List Byte) (s : State) : (loaded stream s).src = s.src.setBytes 0 stream := rfl

/-- A loaded stream of one pixel is accepted: the machine is about to fetch its chunk at byte 14. -/
theorem decodeStart_loaded {s : State} {bs : List Byte} (hs : s.src.wf = true) (hlen : bs.length = 5) :
    Machine.decodeStart (loaded (onePixelStream bs) s) = decodeAccept 1 1 4 0 (loaded (onePixelStream bs) s) ∧
      Holds (loaded (onePixelStream bs) s).src 14 bs := by
  have room : 0 + (onePixelStream bs).length ≤ Config.addressSpace := by
    simp only [onePixelStream, List.length_append, hlen]
    decide
  have held := holds_setBytes hs room
  rw [← loaded_src, onePixelStream] at held
  obtain ⟨heldFront, -⟩ := holds_append.1 held
  obtain ⟨heldHeader, heldChunk⟩ := holds_append.1 heldFront
  exact ⟨decodeStart_of_holds rfl (show 22 ≤ (27 : Word).toNat by decide) (by decide) heldHeader, heldChunk⟩

/-- The accepted start is about to fetch. -/
theorem fetchReady_decodeAccept_loaded (stream : List Byte) (s : State) :
    FetchReady (decodeAccept 1 1 4 0 (loaded stream s)) :=
  ⟨rfl, rfl, rfl, show (14 : Word).toNat < (endOfChunks 27).toNat by decide⟩

/-- A chunk is placed at `rp` or loaded as a stream of its own (log entry 15). -/
theorem placeChunk_eq (bs : List Byte) (s : State) : placeChunk bs s =
    if fetchReady s then { s with src := s.src.setBytes s.rp.toNat bs }
    else Machine.decodeStart (loaded (onePixelStream bs) s) := rfl

/-- Settles O22: at `rp`, or as the only chunk of a stream that a start has accepted, the word is what is fetched. -/
theorem placedTableWordRuns : Obligations.PlacedTableWordRuns := by
  intro s nbits w i hs hw
  rw [State.withFetchWord, placeChunk_eq]
  split
  next hready =>
    obtain ⟨hfetch, room, -⟩ := fetchReady_iff.1 hready
    exact step_of_placed (s := { s with src := s.src.setBytes s.rp.toNat (tableBytes nbits w) }) hfetch room
      (holds_setBytes hs room) hw
  · obtain ⟨accepted, held⟩ := decodeStart_loaded (bs := tableBytes nbits w) hs rfl
    rw [accepted]
    refine step_of_placed (fetchReady_decodeAccept_loaded _ s) ?_ ?_ hw
    · rw [decodeAccept_rp]; decide
    · rw [decodeAccept_src, decodeAccept_rp]; exact held

end Sys2Proof.Proofs.DecodeStart
end

section
/-! PROOF. The decoder on the encoder's output, chunk by chunk: the parts of the round trip (O52). -/

namespace Sys2Proof.Proofs.DecodeChunks

open Sys2Proof.Machine Sys2Proof.Safety Sys2Proof.Proofs.Invariant Sys2Proof.Proofs.Latches Sys2Proof.Proofs.Bounds
  Sys2Proof.Proofs.Runs Sys2Proof.Proofs.Encoding Sys2Proof.Proofs.EncodeRun Sys2Proof.Proofs.EncodeSteps
  Sys2Proof.Proofs.EncodeChoice Sys2Proof.Proofs.Fetch Sys2Proof.Proofs.DecodeRun

/-! ### What a decode has put out -/

/-- A decode that has put out the first `i` pixels of the image in `m`: in DONE after the last, else in D_PIX (R95, R105). -/
structure Shows (m : Memory) (t : State) : Prop where
  inv : Inv t
  inbox : t.inbox = []
  wp : t.wp.toNat = t.i.toNat * t.oc.toNat
  bytes : SameBytes t.dst m t.wp.toNat
  fsm : t.fsm = if t.i = t.n then .done else .dPix

/-- `k` steps of a decode of the image in `m`, from `s` to `t`: a pixel at each. -/
structure Emits (m : Memory) (k : Nat) (s t : State) : Prop where
  run : stepN k s = .next t
  shows : Shows m t
  count : t.i.toNat = s.i.toNat + k
  frame : EncodeFrame s t

theorem Emits.refl {m : Memory} {s : State} (h : Shows m s) : Emits m 0 s s := ⟨rfl, h, rfl, encodeFrame_update ..⟩

theorem Emits.trans {m : Memory} {j k : Nat} {s t u : State} (h : Emits m j s t) (h' : Emits m k t u) :
    Emits m (j + k) s u where
  run := by rw [stepN_add, h.run, andThen_next, h'.run]
  shows := h'.shows
  count := by rw [h'.count, h.count, Nat.add_assoc]
  frame := encodeFrame_trans h.frame h'.frame

theorem Shows.fsm_dPix {m : Memory} {s : State} (h : Shows m s) (hi : s.i.toNat < s.n.toNat) : s.fsm = .dPix :=
  h.fsm.trans (if_neg fun e => by rw [e] at hi; exact Nat.lt_irrefl _ hi)

/-- The output packer gives a pixel unit back (R72, R73). -/
theorem pixelBytes_assemble (m : Memory) (a : Nat) (c : Byte) :
    pixelBytes (assemble m a c) c = m.getBytes a (unitBytes c) := by
  by_cases hc : c = 4#8 <;>
    simp [pixelBytes, assemble, unitBytes, hc, Pixels.red_pack, Pixels.green_pack, Pixels.blue_pack, alpha_pack,
      Memory.getBytes]

/-- What is read is the memory's bytes. -/
theorem getD_getBytes {m : Memory} {a n k : Nat} (h : k < n) : (m.getBytes a n).getD k 0 = m.get (a + k) := by
  induction n generalizing a k with
  | zero => omega
  | succ n ih =>
    cases k with
    | zero => rfl
    | succ k => rw [Memory.getBytes, List.getD_cons_succ, ih (by omega), Nat.add_assoc, Nat.add_comm 1]

/-- A pixel of the image appended to an output that shows the image so far. -/
theorem sameBytes_setBytes {d : DstMemory} {m : Memory} {a : Nat} {c : Byte} (hd : d.wf = true)
    (room : a + unitBytes c ≤ Config.addressSpace) (h : SameBytes d m a) :
    SameBytes (d.setBytes a (pixelBytes (assemble m a c) c)) m (a + unitBytes c) := by
  intro x hx
  have hlen := pixelBytes_length (assemble m a c) c
  rw [DstMemory.get_setBytes hd (by rw [hlen]; exact room), hlen]
  split
  next hin =>
    rw [pixelBytes_assemble, getD_getBytes (by omega), Nat.add_sub_cancel' hin.1]
  next hout => exact h x (by omega)

/-- A step that retires the image's next pixel. -/
theorem emits_retired {m : Memory} {s : State} {q : Word} {r : BitVec 6} {p : Word} {c : Vector Word 64}
    (h : Shows m s) (hi : s.i.toNat < s.n.toNat)
    (hstep : decodePixel s = .next (retired { s with rp := q, run := r, px := p, cache := c }))
    (hp : assemble m s.wp.toNat s.oc = p) :
    Emits m 1 s (retired { s with rp := q, run := r, px := p, cache := c }) := by
  have hf := h.fsm_dPix hi
  have hcore := (coreStep_dPix hf).trans hstep
  have room := (emitRoom_iff s).1 (emitRoom_of_inv h.inv hf)
  have hinv := inv_coreStep h.inv hcore
  obtain ⟨-, hd, -, -, -, hdec⟩ := h.inv
  have hprog := hdec hf
  have hoc := oc_of_decodeProgress hprog
  have hi1 : (s.i + 1).toNat = s.i.toNat + 1 := toNat_add_one hi
  have hwp : (s.wp + s.oc.setWidth 32).toNat = (s.i.toNat + 1) * s.oc.toNat :=
    toNat_add_channels h.wp hoc (hi.trans (n_lt_of_decodeProgress hprog))
  have hend : s.wp.toNat + unitBytes s.oc = (s.i.toNat + 1) * s.oc.toNat := by
    rw [h.wp, (unitBytes_of_channels hoc).1, Nat.succ_mul]
  refine ⟨(stepN_one s).trans ((step_core h.inbox).trans hcore), ⟨hinv, h.inbox, ?_, ?_, ?_⟩, hi1, coreStep_frame hcore⟩
  · exact hwp.trans (by rw [← hi1]; rfl)
  · show SameBytes (s.dst.setBytes s.wp.toNat (pixelBytes p s.oc)) m (s.wp + s.oc.setWidth 32).toNat
    rw [hwp, ← hend, ← hp]
    exact sameBytes_setBytes hd room h.bytes
  · exact hf ▸ rfl

/-! ### The chunks the encoder writes -/

/-- The pixels from `a` up to `b` of the image in `m`, of `c` channels, are all `p`. -/
def AllPixels (m : Memory) (c : Byte) (a b : Nat) (p : Word) : Prop :=
  ∀ j, a ≤ j → j < b → assemble m (j * c.toNat) c = p

/-- The rest of a run: its pixels are put out, nothing is read, the cache is kept (R96). -/
theorem emits_continue {m : Memory} {k : Nat} {s : State} (h : Shows m s) (hrun : s.run.toNat = k)
    (hk : s.i.toNat + k ≤ s.n.toNat) (hp : AllPixels m s.oc s.i.toNat (s.i.toNat + k) s.px) :
    ∃ t, Emits m k s t ∧ t.run = 0 ∧ t.rp = s.rp ∧ t.px = s.px ∧ t.cache = s.cache := by
  induction k generalizing s with
  | zero => exact ⟨s, .refl h, BitVec.eq_of_toNat_eq hrun, rfl, rfl, rfl⟩
  | succ k ih =>
    have hi : s.i.toNat < s.n.toNat := by omega
    have hne : s.run ≠ 0 := fun e => by rw [e] at hrun; cases hrun
    have room := emitRoom_of_inv h.inv (h.fsm_dPix hi)
    have hstep : decodePixel s = .next (retired { s with run := s.run - 1 }) := by
      rw [decodePixel_continue hne]
      exact retirePixel_room (s := { s with run := s.run - 1 }) room
    have one : Emits m 1 s (retired { s with run := s.run - 1 }) :=
      emits_retired (q := s.rp) (c := s.cache) h hi hstep (h.wp ▸ hp _ le_rfl (by omega))
    have hi1 := one.count
    obtain ⟨t, ht, hrun', hrp, hpx, hcache⟩ := ih one.shows (show (s.run - 1).toNat = k by bv_omega)
      (show _ ≤ s.n.toNat by omega) (fun j hj hj' => hp j (by omega) (by omega))
    exact ⟨t, Nat.add_comm 1 k ▸ one.trans ht, hrun', hrp, hpx, hcache⟩

/-- A chunk whose bytes SRC holds at `rp`, below CEND, is what a step with no run open runs (R95). -/
theorem decodePixel_of_holds {s : State} {i : Instr} (hr : s.run = 0) (hwf : i.wf = true)
    (hend : s.rp.toNat + i.length ≤ s.cend.toNat) (held : Holds s.src s.rp.toNat (encode i)) :
    decodePixel s = exec i s := by
  have hpos := instr_length_pos i
  have room : s.rp.toNat + i.length ≤ Config.addressSpace := hend.trans s.cend.isLt.le
  rw [decodePixel_fetch hr (by omega), runChunk_ok (fetchChunk_of_holds hwf room held)]

/-- A RUN chunk puts out its pixel and the repeats, and stores the pixel once (R103, R96). -/
theorem emits_run {m : Memory} {k : Nat} {s : State} (h : Shows m s) (hr : s.run = 0) (h1 : 1 ≤ k) (h62 : k ≤ 62)
    (hk : s.i.toNat + k ≤ s.n.toNat) (hp : AllPixels m s.oc s.i.toNat (s.i.toNat + k) s.px)
    (hend : s.rp.toNat + 1 ≤ s.cend.toNat) (held : Holds s.src s.rp.toNat (encode (.run k))) :
    ∃ t, Emits m k s t ∧ t.run = 0 ∧ t.rp = s.rp + 1 ∧ t.px = s.px ∧ CacheStored s t s.px := by
  have hi : s.i.toNat < s.n.toNat := by omega
  have room := emitRoom_of_inv h.inv (h.fsm_dPix hi)
  have hwf : (Instr.run k).wf = true := decide_eq_true ⟨h1, h62⟩
  have hstep := (decodePixel_of_holds hr hwf hend held).trans (exec_room room (.run k))
  have one := emits_retired h hi hstep (h.wp ▸ hp _ le_rfl (by omega))
  have hi1 := one.count
  have hleft : (BitVec.ofNat 6 (k - 1)).toNat = k - 1 := Nat.mod_eq_of_lt (by omega)
  obtain ⟨t, ht, hrun', hrp, hpx, hcache⟩ := emits_continue one.shows hleft
    (show _ ≤ s.n.toNat by omega) (fun j hj hj' => hp j (by omega) (by omega))
  refine ⟨t, Nat.add_sub_cancel' h1 ▸ one.trans ht, hrun', hrp, hpx, fun j => ?_⟩
  exact (cacheRead_congr hcache j).trans (cacheRead_cacheWrite s (pixelHash s.px) j s.px)

/-- The chunk of a pixel that missed the cache has operands in range (R67, R83). -/
theorem wf_missChunk (p q : Word) : (missChunk p q).wf = true := by
  simp only [missChunk]
  split
  · split
    next hd => exact hd
    next =>
      split
      next hl => exact hl
      next => rfl
  · rfl

/-- Where there is room, that chunk makes the pixel the current one and stores it, and `rp` moves past the chunk. -/
theorem exec_missChunk_room {p : Word} {s : State} (room : EmitRoom s) : exec (missChunk p s.px) s =
    .next (retired (storePixel (takeChunk (missChunk p s.px).length p s))) := by
  obtain ⟨len, hexec⟩ := exec_missChunk p s
  have ht := hexec.trans (storingChunk_room room)
  obtain ⟨-, _, _, heq⟩ := exec_next ht
  have hrp : s.rp + BitVec.ofNat 32 len = s.rp + BitVec.ofNat 32 (missChunk p s.px).length := congrArg State.rp heq
  rw [ht, takeChunk, takeChunk, hrp]

/-- The chunk of a changed pixel: INDEX where its slot gives it, else the chunk by its differences. Run by a decoder with
the encoder's previous pixel, it puts the pixel out, and the pixel is in its slot, the others as before (R98 to R102). -/
theorem emits_changed {m : Memory} {s : State} {p : Word} {i : Instr} (h : Shows m s) (hr : s.run = 0)
    (hi : s.i.toNat < s.n.toNat) (hp : assemble m (s.i.toNat * s.oc.toNat) s.oc = p)
    (hc : i = missChunk p s.px ∨ (i = .index (pixelHash p) ∧ s.cacheRead (pixelHash p) = p))
    (hend : s.rp.toNat + i.length ≤ s.cend.toNat) (held : Holds s.src s.rp.toNat (encode i)) :
    ∃ t, Emits m 1 s t ∧ t.run = 0 ∧ t.rp = s.rp + BitVec.ofNat 32 i.length ∧ t.px = p ∧ CacheStored s t p := by
  have room := emitRoom_of_inv h.inv (h.fsm_dPix hi)
  rw [← h.wp] at hp
  obtain rfl | ⟨rfl, hit⟩ := hc
  · have hstep := (decodePixel_of_holds hr (wf_missChunk p s.px) hend held).trans (exec_missChunk_room room)
    exact ⟨_, emits_retired h hi hstep hp, hr, rfl, rfl, fun k => cacheRead_cacheWrite s (pixelHash p) k p⟩
  · have hstep := (decodePixel_of_holds hr rfl hend held).trans (exec_room room (.index (pixelHash p)))
    refine ⟨_, emits_retired h hi hstep (hp.trans hit.symm), hr, rfl, hit, fun k => ?_⟩
    split
    next hk => exact hk ▸ hit
    next => rfl

end Sys2Proof.Proofs.DecodeChunks
end

section
/-! PROOF. A decoder of the encoder's output follows the encoder, an open run behind it: the simulation of the round trip
(O52). -/

namespace Sys2Proof.Proofs.Follow

open Sys2Proof.Machine Sys2Proof.Safety Sys2Proof.Proofs.Invariant Sys2Proof.Proofs.Latches Sys2Proof.Proofs.Bounds
  Sys2Proof.Proofs.Memories Sys2Proof.Proofs.Runs Sys2Proof.Proofs.EncodeRun Sys2Proof.Proofs.EncodeInputs
  Sys2Proof.Proofs.EncodeSteps Sys2Proof.Proofs.Fetch Sys2Proof.Proofs.DecodeChunks

/-! ### The two caches -/

/-- A hit in the encoder's cache is one in the decoder's. The caches themselves may differ: a RUN chunk stores its pixel in
the decoder's alone (90_conflicts.md C2), which for a run of the initial pixel is a new entry. -/
def CacheCovers (e t : State) : Prop := ∀ p, e.cacheRead (pixelHash p) = p → t.cacheRead (pixelHash p) = p

/-- In its own slot the encoder's previous pixel is the only one that can hit. -/
def OnlyPrevHits (e : State) : Prop :=
  ∀ p, pixelHash p = pixelHash e.pxPrev → e.cacheRead (pixelHash p) = p → p = e.pxPrev

theorem CacheCovers.of_cache_eq {e e' t : State} (h : CacheCovers e t) (hc : e'.cache = e.cache) : CacheCovers e' t :=
  fun p hp => h p ((cacheRead_congr hc _).symm.trans hp)

theorem OnlyPrevHits.of_cache_eq {e e' : State} (h : OnlyPrevHits e) (hc : e'.cache = e.cache)
    (hp : e'.pxPrev = e.pxPrev) : OnlyPrevHits e' := by
  intro p hash hit
  rw [hp] at hash ⊢
  exact h p hash ((cacheRead_congr hc _).symm.trans hit)

/-- A RUN chunk stores the previous pixel in the decoder's cache: no other can have hit in that slot. -/
theorem CacheCovers.of_run {e t u : State} (h : CacheCovers e t) (hprev : OnlyPrevHits e)
    (hu : CacheStored t u e.pxPrev) : CacheCovers e u := by
  intro p hit
  rw [hu]
  split
  next hash => exact (hprev p hash hit).symm
  next => exact h p hit

/-- A pixel stored in both caches. -/
theorem CacheCovers.of_stored {e e' t u : State} {p : Word} (h : CacheCovers e t) (he : CacheStored e e' p)
    (hu : CacheStored t u p) : CacheCovers e' u := by
  intro q hit
  rw [he] at hit
  rw [hu]
  split
  next hash => rwa [if_pos hash] at hit
  next hash => exact h q (by rwa [if_neg hash] at hit)

theorem onlyPrevHits_of_stored {e e' : State} (he : CacheStored e e' e'.pxPrev) : OnlyPrevHits e' := by
  intro p hash hit
  rwa [he, if_pos hash, eq_comm] at hit

/-! ### The encoder's output in the decoder's SRC -/

/-- The memory holds what the encoder has written so far. -/
def HoldsOutput (m : Memory) (e : State) : Prop := ∀ a, a < e.wp.toNat → m.get a = e.dst.get a

/-- Bytes the encoder has just appended stand in that memory where `wp` was. -/
theorem HoldsOutput.appended {m : Memory} {e e' : State} {bs : List Byte} (h : HoldsOutput m e')
    (hb : Appended bs e e') (hd : e.dst.wf = true) :
    Holds m e.wp.toNat bs ∧ e'.wp.toNat = e.wp.toNat + bs.length := by
  obtain ⟨room, hdst, hwp⟩ := hb
  have hwp : e'.wp.toNat = e.wp.toNat + bs.length := by rw [hwp, toNat_add_ofNat room]
  refine ⟨holds_of_get fun k hk => ?_, hwp⟩
  rw [h _ (by omega), hdst, DstMemory.get_setBytes hd room.le, if_pos (by omega), Nat.add_sub_cancel_left]

/-- A run of the encoder keeps what was written before it (R46). -/
theorem stepN_keeps_dst_below {k : Nat} {s t : State} (h : EncoderRuns s) (ht : stepN k s = .next t) :
    s.wp.toNat ≤ t.wp.toNat ∧ ∀ a, a < s.wp.toNat → t.dst.get a = s.dst.get a := by
  induction k generalizing s with
  | zero => cases ht; exact ⟨le_rfl, fun _ _ => rfl⟩
  | succ k ih =>
    obtain ⟨u, hu, hrun⟩ := stepN_succ_next ht
    obtain ⟨hle, hbelow⟩ := ih (encoderRuns_step h hu) hrun
    obtain ⟨hinv, hi, -⟩ := h
    obtain ⟨hle₁, hkept⟩ := dstIsWrittenInOrder s u hinv hi hu
    exact ⟨hle₁.trans hle, fun a ha => (hbelow a (ha.trans_le hle₁)).trans (hkept a (.inl ha))⟩

/-- So the final output holds every earlier one. -/
theorem HoldsOutput.before {m : Memory} {k : Nat} {s t : State} (h : HoldsOutput m t) (hs : EncoderRuns s)
    (ht : stepN k s = .next t) : HoldsOutput m s ∧ s.wp.toNat ≤ t.wp.toNat := by
  obtain ⟨hle, hbelow⟩ := stepN_keeps_dst_below hs ht
  exact ⟨fun a ha => (h a (ha.trans_le hle)).trans (hbelow a ha), hle⟩

/-! ### The decoder follows the encoder -/

/-- The decoder `t` has read all the encoder `e` has written and so has put out every pixel before the open run, whose
pixels are all the encoder's previous one. -/
structure Tracks (e t : State) : Prop where
  shows : Shows e.src t
  run : t.run = 0
  oc : t.oc = e.ch
  n : t.n = e.n
  i : t.i.toNat + e.run.toNat = e.i.toNat
  rp : t.rp = e.wp
  px : t.px = e.pxPrev
  openRun : AllPixels e.src e.ch t.i.toNat e.i.toNat e.pxPrev
  covers : CacheCovers e t
  onlyPrev : OnlyPrevHits e

/-- The encoder after a step in E_PIX. -/
def afterPixel (e : State) : State := encodeAdvance (chosen (takeUnit e))

/-- The decoder has caught up with an encoder that has no run open. -/
theorem Tracks.caught_up {e e' t u : State} {k : Nat} (h : Tracks e t) (hframe : EncodeFrame e e')
    (hu : Emits e.src k t u) (hk : u.i.toNat = e'.i.toNat) (hrun : u.run = 0) (hrun' : e'.run = 0) (hrp : u.rp = e'.wp)
    (hpx : u.px = e'.pxPrev) (hcovers : CacheCovers e' u) (honly : OnlyPrevHits e') : Tracks e' u := by
  obtain ⟨-, ⟨hn', hch', -⟩, hsrc', -⟩ := hframe
  obtain ⟨-, ⟨hn, -, hoc, -⟩, -⟩ := hu.frame
  exact {
    shows := hsrc' ▸ hu.shows
    run := hrun
    oc := hoc.trans (h.oc.trans hch'.symm)
    n := hn.trans (h.n.trans hn'.symm)
    i := by rw [hrun', hk]; rfl
    rp := hrp
    px := hpx
    openRun := fun j hj hj' => by omega
    covers := hcovers
    onlyPrev := honly }

section
variable {e t : State} (hinv : Inv e) (hf : e.fsm = .ePix) (h : Tracks e t)
include hinv hf

theorem coreStep_ePix_of_inv : coreStep e = .next (afterPixel e) := (coreStep_ePix hf).trans (encodePixel_of_inv hinv hf)

theorem appended_afterPixel : Appended (chosenBytes (takeUnit e)) e (afterPixel e) :=
  ⟨room_of_inv hinv (busy_of_fsm hf rfl) ((length_chosenBytes_le_six (takeUnit e)).trans (by decide)), rfl, rfl⟩

/-- What E_PIX finds (R28, R29, R72): the run is below 62, a pixel is left, and it is the image's pixel `i`. -/
theorem ePix_facts : e.run.toNat ≤ 61 ∧ e.i.toNat < e.n.toNat ∧ (e.i + 1).toNat = e.i.toNat + 1 ∧
    assemble e.src (e.i.toNat * e.ch.toNat) e.ch = (takeUnit e).px := by
  obtain ⟨-, -, -, hpix, -⟩ := hinv
  obtain ⟨-, ⟨hrp, hrun, -⟩, hi⟩ := hpix hf
  exact ⟨hrun, hi, toNat_add_one hi, by rw [takeUnit_px, hrp]⟩

include h

/-- A repeated pixel extends the run it belongs to. -/
theorem allPixels_repeated (hp : (takeUnit e).px = e.pxPrev) :
    AllPixels e.src e.ch t.i.toNat (e.i + 1).toNat e.pxPrev := by
  obtain ⟨-, -, hi1, hunit⟩ := ePix_facts hinv hf
  intro j hj hj'
  by_cases hlast : j = e.i.toNat
  · rw [hlast, hunit, hp]
  · exact h.openRun j hj (by omega)

/-- A repeated pixel whose run stays open: the decoder waits. -/
theorem tracks_open (hp : (takeUnit e).px = e.pxPrev) (hc : ¬ RunCloses (takeUnit e)) : Tracks (afterPixel e) t := by
  obtain ⟨hrun, -, hi1, -⟩ := ePix_facts hinv hf
  have hbytes : chosenBytes (takeUnit e) = [] := (if_pos hp).trans (if_neg hc)
  have hopen : (afterPixel e).run = e.run + 1 := if_pos ⟨hp, hc⟩
  have hwp : (afterPixel e).wp = e.wp := by
    show e.wp + BitVec.ofNat 32 (chosenBytes (takeUnit e)).length = e.wp
    rw [hbytes]
    exact BitVec.add_zero _
  have hcache : (afterPixel e).cache = e.cache := if_pos hp
  have hprev : (afterPixel e).pxPrev = e.pxPrev := hp
  exact {
    shows := h.shows
    run := h.run
    oc := h.oc
    n := h.n
    i := by
      show t.i.toNat + (afterPixel e).run.toNat = (e.i + 1).toNat
      rw [hopen, toNat_run_add_one hrun, hi1, ← h.i, Nat.add_assoc]
    rp := h.rp.trans hwp.symm
    px := h.px.trans hprev.symm
    openRun := by rw [hprev]; exact allPixels_repeated (e := e) hinv hf h hp
    covers := h.covers.of_cache_eq hcache
    onlyPrev := h.onlyPrev.of_cache_eq hcache hprev }

section
variable (hout : HoldsOutput t.src (afterPixel e)) (hend : (afterPixel e).wp.toNat ≤ t.cend.toNat)
include hout hend

/-- The bytes of the step stand at the decoder's `rp`, below CEND. -/
theorem holds_chosenBytes : Holds t.src t.rp.toNat (chosenBytes (takeUnit e)) ∧
    t.rp.toNat + (chosenBytes (takeUnit e)).length ≤ t.cend.toNat := by
  have hb := appended_afterPixel hinv hf
  obtain ⟨-, hd, -⟩ := hinv
  obtain ⟨held, hwp⟩ := hout.appended hb hd
  rw [h.rp]
  exact ⟨held, hwp ▸ hend⟩

/-- A repeated pixel whose run closes: the decoder runs the RUN chunk and its repeats. -/
theorem tracks_closed (hp : (takeUnit e).px = e.pxPrev) (hc : RunCloses (takeUnit e)) :
    ∃ k u, Emits e.src k t u ∧ Tracks (afterPixel e) u := by
  obtain ⟨hrun, hi, hi1, -⟩ := ePix_facts hinv hf
  have hbytes : chosenBytes (takeUnit e) = encode (.run (e.run + 1).toNat) := (if_pos hp).trans (if_pos hc)
  obtain ⟨held, hcend⟩ := holds_chosenBytes hinv hf h hout hend
  rw [hbytes] at held hcend
  have hr1 := toNat_run_add_one hrun
  have hk : t.i.toNat + (e.run + 1).toNat = (e.i + 1).toNat := by rw [hr1, hi1, ← h.i, Nat.add_assoc]
  have pixels : AllPixels e.src t.oc t.i.toNat (t.i.toNat + (e.run + 1).toNat) t.px := by
    rw [h.oc, h.px, hk]
    exact allPixels_repeated hinv hf h hp
  obtain ⟨u, hu, hurun, hurp, hupx, hstored⟩ :=
    emits_run h.shows h.run (by omega) (by omega) (by rw [h.n]; omega) pixels hcend held
  have hcache : (afterPixel e).cache = e.cache := if_pos hp
  have hprev : (afterPixel e).pxPrev = e.pxPrev := hp
  have hrp : u.rp = (afterPixel e).wp := by
    show u.rp = e.wp + BitVec.ofNat 32 (chosenBytes (takeUnit e)).length
    rw [hbytes, hurp, h.rp]
    rfl
  refine ⟨_, u, hu, h.caught_up (coreStep_frame (coreStep_ePix_of_inv hinv hf)) hu (hu.count.trans hk) hurun
    (if_neg fun hopen => hopen.2 hc) hrp (hupx.trans (h.px.trans hprev.symm)) ?_ (h.onlyPrev.of_cache_eq hcache hprev)⟩
  exact (h.covers.of_run h.onlyPrev (h.px ▸ hstored)).of_cache_eq hcache

end

/-- Before a changed pixel the decoder catches up with the open run, if there is one (R83). -/
theorem catches_up {bs : List Byte} (hbs : bs = if e.run = 0 then [] else encode (.run e.run.toNat))
    (held : Holds t.src t.rp.toNat bs) (hcend : t.rp.toNat + bs.length ≤ t.cend.toNat) :
    ∃ u, Emits e.src e.run.toNat t u ∧ u.run = 0 ∧ u.rp = t.rp + BitVec.ofNat 32 bs.length ∧ u.px = e.pxPrev ∧
      CacheCovers e u := by
  obtain ⟨hrun, hi, -, -⟩ := ePix_facts hinv hf
  subst hbs
  by_cases h0 : e.run = 0
  · rw [if_pos h0, h0]
    exact ⟨t, .refl h.shows, h.run, (BitVec.add_zero _).symm, h.px, h.covers⟩
  · rw [if_neg h0] at held hcend ⊢
    have hpos : e.run.toNat ≠ 0 := fun hz => h0 (BitVec.eq_of_toNat_eq hz)
    have pixels : AllPixels e.src t.oc t.i.toNat (t.i.toNat + e.run.toNat) t.px := by
      rw [h.oc, h.px, h.i]
      exact h.openRun
    obtain ⟨u, hu, hurun, hurp, hupx, hstored⟩ :=
      emits_run h.shows h.run (Nat.pos_of_ne_zero hpos) (by omega) (by rw [h.n, h.i]; exact hi.le) pixels hcend held
    exact ⟨u, hu, hurun, hurp, hupx.trans h.px, h.covers.of_run h.onlyPrev (h.px ▸ hstored)⟩

variable (hout : HoldsOutput t.src (afterPixel e)) (hend : (afterPixel e).wp.toNat ≤ t.cend.toNat)
include hout hend

/-- A changed pixel: the decoder catches up with the open run and runs the pixel's chunk. -/
theorem tracks_changed (hp : (takeUnit e).px ≠ e.pxPrev) :
    ∃ k u, Emits e.src k t u ∧ Tracks (afterPixel e) u := by
  obtain ⟨-, hi, hi1, hunit⟩ := ePix_facts hinv hf
  obtain ⟨held, hcend⟩ := holds_chosenBytes hinv hf h hout hend
  have hbytes : chosenBytes (takeUnit e) = (if e.run = 0 then [] else encode (.run e.run.toNat)) ++
      encode (changedChunk (takeUnit e).px (takeUnit e)) := if_neg hp
  rw [hbytes] at held hcend
  rw [List.length_append] at hcend
  obtain ⟨heldRun, heldChunk⟩ := holds_append.1 held
  obtain ⟨u, hu, hurun, hurp, hupx, hcovers⟩ := catches_up hinv hf h rfl heldRun (by omega)
  obtain ⟨-, ⟨hn, -, hoc, hucend⟩, husrc, -⟩ := hu.frame
  have hui : u.i.toNat = e.i.toNat := hu.count.trans h.i
  have huoc : u.oc = e.ch := hoc.trans h.oc
  have hspace : t.cend.toNat < Config.addressSpace := t.cend.isLt
  have hurp' := congrArg BitVec.toNat hurp
  rw [toNat_add_ofNat (by omega)] at hurp'
  have hchunk : changedChunk (takeUnit e).px (takeUnit e) = missChunk (takeUnit e).px u.px ∨
      (changedChunk (takeUnit e).px (takeUnit e) = .index (pixelHash (takeUnit e).px) ∧
        u.cacheRead (pixelHash (takeUnit e).px) = (takeUnit e).px) := by
    rw [changedChunk, hupx]
    split
    next hit => exact .inr ⟨rfl, hcovers _ hit⟩
    next => exact .inl rfl
  obtain ⟨v, hv, hvrun, hvrp, hvpx, hstored⟩ := emits_changed hu.shows hurun
    (show u.i.toNat < u.n.toNat by rw [hui, hn, h.n]; exact hi) (show _ = (takeUnit e).px by rw [hui, huoc, hunit]) hchunk
    (by rw [hucend, hurp', ← encode_length]; omega) (by rw [husrc, hurp']; exact heldChunk)
  have hcache : (afterPixel e).cache = ((takeUnit e).cacheWrite (pixelHash (takeUnit e).px) (takeUnit e).px).cache :=
    if_neg hp
  have hestored : CacheStored e (afterPixel e) (takeUnit e).px := fun k =>
    (cacheRead_congr hcache k).trans (cacheRead_cacheWrite (takeUnit e) _ k _)
  have hrp : v.rp = (afterPixel e).wp := by
    show v.rp = e.wp + BitVec.ofNat 32 (chosenBytes (takeUnit e)).length
    rw [hvrp, hurp, h.rp, hbytes, List.length_append, encode_length, BitVec.add_assoc, BitVec.ofNat_add]
  exact ⟨_, v, hu.trans hv, h.caught_up (coreStep_frame (coreStep_ePix_of_inv hinv hf)) (hu.trans hv)
    (hv.count.trans (by rw [hui]; exact hi1.symm)) hvrun (if_neg fun hopen => hp hopen.1) hrp hvpx
    (hcovers.of_stored hestored hstored) (onlyPrevHits_of_stored hestored)⟩

/-- Each step in E_PIX is followed by the decoder. -/
theorem tracks_afterPixel : ∃ k u, Emits e.src k t u ∧ Tracks (afterPixel e) u := by
  by_cases hp : (takeUnit e).px = e.pxPrev
  · by_cases hc : RunCloses (takeUnit e)
    · exact tracks_closed hinv hf h hout hend hp hc
    · exact ⟨0, t, .refl h.shows, tracks_open hinv hf h hp hc⟩
  · exact tracks_changed hinv hf h hout hend hp

end

/-! ### From the first pixel to the last -/

/-- A decoder whose SRC holds the output at E_END follows the encoder there. -/
theorem tracks_stepN {k : Nat} {e f t : State} (hruns : EncoderRuns e) (hf : e.fsm = .ePix)
    (hk : e.i.toNat + k = e.n.toNat) (hrun : stepN k e = .next f) (h : Tracks e t) (hout : HoldsOutput t.src f)
    (hend : f.wp.toNat ≤ t.cend.toNat) : ∃ j u, Emits e.src j t u ∧ Tracks f u := by
  induction k generalizing e t with
  | zero =>
    obtain ⟨hinv, -⟩ := hruns
    obtain ⟨-, hlt, -⟩ := ePix_facts hinv hf
    omega
  | succ k ih =>
    obtain ⟨hinv, hi, -⟩ := id hruns
    obtain ⟨-, -, hi1, -⟩ := ePix_facts hinv hf
    have hcore := coreStep_ePix_of_inv hinv hf
    have hstep : step e = .next (afterPixel e) := (step_core hi).trans hcore
    have hruns' := encoderRuns_step hruns hstep
    rw [stepN_succ hstep] at hrun
    obtain ⟨hout', hle⟩ := hout.before hruns' hrun
    obtain ⟨j, u, hu, hu'⟩ := tracks_afterPixel hinv hf h hout' (hle.trans hend)
    by_cases hlast : e.i + 1 = e.n
    · obtain rfl : k = 0 := by rw [← hlast, hi1] at hk; omega
      cases hrun
      exact ⟨j, u, hu, hu'⟩
    · have hf' : (afterPixel e).fsm = .ePix := (if_neg hlast).trans hf
      have hk' : (e.i + 1).toNat + k = e.n.toNat := by omega
      obtain ⟨-, ⟨-, -, -, hcend⟩, hsrc, -⟩ := hu.frame
      obtain ⟨j', v, hv, hv'⟩ := ih hruns' hf' hk' hrun hu' (hsrc ▸ hout) (hcend ▸ hend)
      exact ⟨j + j', v, hu.trans hv, hv'⟩

end Sys2Proof.Proofs.Follow
end

section
/-! PROOF. The round trip (O52): the two starts, the encode's run, and the decode's that follows it. -/

namespace Sys2Proof.Proofs.RoundTrip

open Sys2Proof.Machine Sys2Proof.Safety Sys2Proof.Proofs.Invariant Sys2Proof.Proofs.Latches Sys2Proof.Proofs.Bounds
  Sys2Proof.Proofs.Memories Sys2Proof.Proofs.Registers Sys2Proof.Proofs.Runs Sys2Proof.Proofs.EncodeRun
  Sys2Proof.Proofs.EncodeInputs Sys2Proof.Proofs.EncodeChoice Sys2Proof.Proofs.Fetch Sys2Proof.Proofs.DecodeStart
  Sys2Proof.Proofs.DecodeChunks Sys2Proof.Proofs.Follow

/-! ### The two starts -/

/-- The encoder after E_HDR. -/
def afterHeader (s : State) : State :=
  { s with
    dst := s.dst.setBytes 0 (headerOf s.width s.height s.channels s.colorspace), wp := 14, fsm := .ePix }

/-- The encoder after E_END. -/
def afterEnd (s : State) : State :=
  { s with dst := s.dst.setBytes s.wp.toNat Config.endMarker, wp := s.wp + 8, fsm := .done }

/-- In an initialised cache nothing hits in the slot of the initial pixel: the only pixel there, 0, hashes elsewhere. -/
theorem onlyPrevHits_initial {s : State} (h : ∀ k, s.cacheRead k = 0#32) (hp : s.pxPrev = Config.pxInit) :
    OnlyPrevHits s := by
  intro p hash hit
  rw [h] at hit
  rw [← hit, hp] at hash
  exact absurd hash (by decide)

/-- After its start a decoder with the header of an encode follows the encoder that has written that header. -/
theorem tracks_start (s : State) {d : State} (hdes : d.desiredChannels = 0) (hi : d.inbox = [])
    (hinv : Inv (decodeAccept s.width s.height s.channels s.colorspace d)) :
    Tracks (afterHeader (encodeAccept s)) (decodeAccept s.width s.height s.channels s.colorspace d) := by
  obtain ⟨hcache, -⟩ := initialised_encodeAccept s
  obtain ⟨hcache', -⟩ := initialised_decodeAccept s.width s.height s.channels s.colorspace d
  have hpos : (0 : Word) ≠ (decodeAccept s.width s.height s.channels s.colorspace d).n := by
    obtain ⟨-, -, -, -, -, hdec⟩ := hinv
    obtain ⟨-, -, -, -, hlt, -⟩ := hdec rfl
    intro h0
    rw [← h0] at hlt
    exact absurd hlt (Nat.not_lt_zero _)
  exact {
    shows := ⟨hinv, hi, (Nat.zero_mul _).symm, fun a ha => absurd ha (Nat.not_lt_zero a), (if_neg hpos).symm⟩
    run := rfl
    oc := by
      show outputChannels d.desiredChannels s.channels = s.channels
      rw [hdes]; rfl
    n := rfl
    i := rfl
    rp := rfl
    px := rfl
    openRun := fun j _ hj => absurd hj (Nat.not_lt_zero j)
    covers := fun _ hit => (hcache' _).trans ((hcache _).symm.trans hit)
    onlyPrev := onlyPrevHits_initial hcache rfl }

/-! ### The run of the encode -/

/-- The step in E_END, from the invariant (R91). -/
theorem step_afterEnd {f : State} (hf : EncoderRuns f) (hff : f.fsm = .eEnd) : step f = .next (afterEnd f) := by
  obtain ⟨hinv, hi, -⟩ := hf
  have room := room_of_inv hinv (busy_of_fsm hff rfl) (k := 8) (by decide)
  exact (step_core hi).trans ((coreStep_eEnd hff).trans (encodeEnd_room room.le))

/-- From an accepted start to E_PIX: the header is appended to an empty output (R82). -/
theorem step_afterHeader {s : State} (h : Inv s) (hi : s.inbox = []) (hf : s.fsm = .eHdr) :
    step s = .next (afterHeader s) ∧ EncoderRuns (afterHeader s) ∧
      Appended (headerOf s.width s.height s.channels s.colorspace) s (afterHeader s) := by
  have hcore : coreStep s = .next (afterHeader s) := (coreStep_eHdr hf).trans (encodeHeader_eq s)
  have room := room_of_inv h (busy_of_fsm hf rfl) (k := 14) le_rfl
  refine ⟨(step_core hi).trans hcore, ⟨inv_coreStep h hcore, hi, nofun⟩, room, ?_⟩
  obtain ⟨-, -, hhdr, -⟩ := h
  obtain ⟨-, -, -, hwp, -⟩ := hhdr hf
  rw [hwp]
  exact ⟨rfl, rfl⟩

/-- The encode accepted in `s` has written its N pixels in `f`. -/
structure EncodesTo (s f : State) : Prop where
  run : stepN s.n.toNat (afterHeader s) = .next f
  runs : EncoderRuns f
  frame : EncodeFrame s f
  fsm : f.fsm = .eEnd

/-- From an accepted start: the header, N pixels up to a state in E_END, and the end marker. -/
theorem stepN_encode {s : State} (h : Inv s) (hi : s.inbox = []) (hf : s.fsm = .eHdr) :
    ∃ f, EncodesTo s f ∧ stepN (s.n.toNat + 2) s = .next (afterEnd f) := by
  obtain ⟨hstep, ⟨hinv, -⟩, -⟩ := step_afterHeader h hi hf
  have hk : (afterHeader s).i.toNat + s.n.toNat = (afterHeader s).n.toNat := by
    obtain ⟨-, -, hhdr, -⟩ := h
    obtain ⟨-, hi0, -⟩ := hhdr hf
    show s.i.toNat + s.n.toNat = s.n.toNat
    rw [hi0]
    exact Nat.zero_add _
  obtain ⟨f, hrun, hinvf, hframe, hff⟩ := stepN_ePix hinv hi rfl hk
  have hframe' : EncodeFrame s f := encodeFrame_trans (encodeFrame_update ..) hframe
  obtain ⟨-, -, -, hif, -⟩ := id hframe
  have hruns : EncoderRuns f := ⟨hinvf, hif.trans hi, by rw [hff]; nofun⟩
  have hall : stepN (s.n.toNat + 1 + 1) s = .next (afterEnd f) := by
    rw [stepN_add, stepN_succ hstep, hrun, andThen_next, stepN_one, step_afterEnd hruns hff]
  exact ⟨f, ⟨hrun, hruns, hframe', hff⟩, hall⟩

/-! ### The run of the decode -/

/-- The decoder `d` is asked to decode the output of the encoder that ends from `f`, with DESIRED_CHANNELS = 0. -/
structure Requests (d f : State) : Prop where
  inv : Inv d
  inbox : d.inbox = []
  desired : d.desiredChannels = 0
  length : d.srcLen = (afterEnd f).wp
  output : HoldsOutput d.src (afterEnd f)

section
variable {s f d : State} (hstart : Inv (encodeAccept s)) (hs : s.inbox = []) (hf : EncodesTo (encodeAccept s) f)
  (hd : Requests d f)

include hf hd in
/-- The end marker follows the output and keeps it (R91), so SRC holds the output and eight bytes more. -/
theorem output_of_requests : HoldsOutput d.src f ∧ d.srcLen.toNat = f.wp.toNat + 8 ∧ 15 ≤ f.wp.toNat := by
  obtain ⟨hout, -⟩ := hd.output.before hf.runs ((stepN_one f).trans (step_afterEnd hf.runs hf.fsm))
  obtain ⟨hinv, -⟩ := hf.runs
  have room := room_of_inv hinv (busy_of_fsm hf.fsm rfl) (k := 8) (by decide)
  exact ⟨hout, hd.length ▸ toNat_add_ofNat room, (wp_range_of_eEnd hinv hf.fsm).1⟩

include hstart hs hf hd

/-- A decode start takes the encode's header. -/
theorem decodeStart_of_requests (hv : headerFieldsValid s.width s.height s.channels s.colorspace = true) :
    Machine.decodeStart d = decodeAccept s.width s.height s.channels s.colorspace d ∧
      Inv (decodeAccept s.width s.height s.channels s.colorspace d) := by
  obtain ⟨-, hruns, happ⟩ := step_afterHeader hstart hs rfl
  obtain ⟨hout, hlen, h15⟩ := output_of_requests hf hd
  obtain ⟨hout, -⟩ := hout.before hruns hf.run
  obtain ⟨-, hdst, -⟩ := hstart
  obtain ⟨held, -⟩ := hout.appended happ hdst
  have legal : desiredLegal d.desiredChannels = true := by rw [hd.desired]; rfl
  have long : 22 ≤ d.srcLen.toNat := by omega
  obtain ⟨hsrc', hdst', -⟩ := hd.inv
  exact ⟨decodeStart_of_holds legal long hv held, inv_decodeAccept hsrc' hdst' legal hv long⟩

/-- After its start the decode puts out the encode's image, in N steps. -/
theorem emits_image (hinv : Inv (decodeAccept s.width s.height s.channels s.colorspace d)) :
    ∃ t, Emits s.src (encodeAccept s).n.toNat (decodeAccept s.width s.height s.channels s.colorspace d) t ∧
      t.fsm = .done ∧ t.wp.toNat = (encodeAccept s).n.toNat * s.channels.toNat := by
  obtain ⟨-, hruns, -⟩ := step_afterHeader hstart hs rfl
  obtain ⟨hout, hlen, h15⟩ := output_of_requests hf hd
  have hcend : (endOfChunks d.srcLen).toNat + 8 = d.srcLen.toNat := endOfChunks_add (by omega)
  have hend : f.wp.toNat ≤ (endOfChunks d.srcLen).toNat := by omega
  obtain ⟨k, t, ht, htracks⟩ :=
    tracks_stepN hruns rfl (Nat.zero_add _) hf.run (tracks_start s hd.desired hd.inbox hinv) hout hend
  obtain ⟨⟨-, -, -, -, hendInv, -⟩, -⟩ := hf.runs
  obtain ⟨-, -, hin, hfrun⟩ := hendInv hf.fsm
  obtain ⟨-, ⟨hn, hch, -⟩, -⟩ := hf.frame
  have hti : t.i.toNat = (encodeAccept s).n.toNat := by
    have := htracks.i
    rwa [hfrun, hin, hn] at this
  have hk : (encodeAccept s).n.toNat = k := hti.symm.trans (ht.count.trans (Nat.zero_add k))
  refine ⟨t, hk ▸ ht, ?_, ?_⟩
  · rw [ht.shows.fsm, if_pos (BitVec.eq_of_toNat_eq (by rw [hti, htracks.n, hn]))]
  · rw [ht.shows.wp, hti, htracks.oc, hch]
    rfl

end

/-- Settles O52: the encode ends N + 2 steps on, its output is a legal stream, and the decoder follows the encoder through
it up to the last pixel. -/
theorem decodeOfEncodeRoundTrip : Obligations.DecodeOfEncodeRoundTrip := by
  intro s s1 hinv hb hi hstep hf
  rw [step_encodeStart hi hb rfl] at hstep
  cases hstep
  obtain ⟨c, -, failed⟩ | ⟨-, hv, hlen, accepted⟩ := encodeStart_cases { s with inbox := [] }
  · rw [failed] at hf
    cases hf
  rw [accepted]
  obtain ⟨hs, hd, -⟩ := hinv
  have hstart := inv_encodeAccept (s := { s with inbox := [] }) hs hd hv hlen
  obtain ⟨f, hf, hall⟩ := stepN_encode hstart rfl rfl
  refine ⟨afterEnd f, hall, rfl, fun d d1 hdinv hdb hdi hdes hdlen hdsrc hdstep => ?_⟩
  rw [step_decodeStart hdi hdb rfl] at hdstep
  cases hdstep
  have hreq : Requests { d with inbox := [] } f := ⟨hdinv, rfl, hdes, hdlen, hdsrc⟩
  obtain ⟨taken, hinv'⟩ := decodeStart_of_requests hstart rfl hf hreq hv
  obtain ⟨t, ht, hft, hwt⟩ := emits_image hstart rfl hf hreq hinv'
  have hwp : t.wp = s.srcLen := by
    obtain ⟨-, -, hhdr, -⟩ := hstart
    obtain ⟨⟨-, -, -, hsrcLen⟩, -⟩ := hhdr rfl
    exact BitVec.eq_of_toNat_eq (hwt.trans hsrcLen.symm)
  obtain ⟨⟨herr, hw, hh, hc, hcs, -⟩, -⟩ := ht.frame
  rw [taken]
  exact ⟨t, ht.run, hft, herr, hw, hh, hc, hcs, hwp, hwp ▸ ht.shows.bytes⟩

end Sys2Proof.Proofs.RoundTrip
end

section
/-! PROOF. Errors and waiting: what a failing start changes (O31, O32), what IDLE, DONE and ERROR keep (O33, O34), and that no
step of the core stops (O44). -/

namespace Sys2Proof.Proofs.Exceptions

open Sys2Proof.Machine Sys2Proof.Safety Sys2Proof.Proofs.Registers Sys2Proof.Proofs.Bounds Sys2Proof.Proofs.Memories
  Sys2Proof.Proofs.EncodeRun Sys2Proof.Proofs.DecodeRun

/-! ### No step of the core stops -/

/-- The core's own step answers a next state from the invariant, in every state of the state machine (R44, R45, R118). -/
theorem exists_coreStep {s : State} (h : Inv s) : ∃ t, coreStep s = .next t := by
  cases hf : s.fsm with
  | eHdr => exact ⟨_, (coreStep_eHdr hf).trans (encodeHeader_eq s)⟩
  | ePix => exact ⟨_, (coreStep_ePix hf).trans (encodePixel_of_inv h hf)⟩
  | eEnd =>
    have room := room_of_inv h (busy_of_fsm hf rfl) (k := 8) (by decide)
    exact ⟨_, (coreStep_eEnd hf).trans (encodeEnd_room room.le)⟩
  | dPix =>
    obtain ⟨t, ht⟩ := exists_decodePixel h hf
    exact ⟨t, (coreStep_dPix hf).trans ht⟩
  | idle | done | error => exact ⟨s, coreStep_waiting (by rw [State.busy, hf]; rfl)⟩

/-- Settles O44, by the host's next action: the core's turn answers by the invariant, an action by its own rule. -/
theorem stepStopsOnlyOnARefusedHostAction : Obligations.StepStopsOnlyOnARefusedHostAction := by
  intro s h
  cases hi : s.inbox with
  | nil => exact .inl (step_core hi ▸ exists_coreStep h)
  | cons e es =>
    cases e with
    | wait => exact .inl (step_host hi ▸ exists_coreStep (s := { s with inbox := es }) h)
    | reset => exact .inl ⟨_, step_host hi⟩
    | regRead size off =>
      by_cases ha : size = 4 ∧ off.toNat % 4 = 0
      · exact .inl ⟨_, step_regRead_legal hi ha⟩
      · exact .inr (.inl ⟨size, off, es, rfl, ha, step_regRead_refused hi ha⟩)
    | regWrite size off v =>
      by_cases ha : size = 4 ∧ off.toNat % 4 = 0
      · exact .inl ⟨_, step_regWrite_legal hi ha⟩
      · exact .inr (.inr (.inl ⟨size, off, v, es, rfl, ha, step_regWrite_refused hi ha⟩))
    | srcRead a => exact .inl ⟨_, step_srcRead hi⟩
    | srcWrite a v =>
      cases hb : s.busy with
      | false => exact .inl ⟨_, step_srcWrite_not_busy hi hb⟩
      | true => exact .inr (.inr (.inr ⟨a, v, es, rfl, rfl, step_srcWrite_busy hi hb⟩))
    | dstRead a => exact .inl ⟨_, step_dstRead hi⟩

/-! ### A CTRL write that starts, by its OP -/

/-- OP is one of its four values. -/
theorem op_cases : ∀ op : BitVec 2, op = 0b00#2 ∨ op = 0b01#2 ∨ op = 0b10#2 ∨ op = 0b11#2 := by decide

section
variable {s : State} {v : Word}

/-- A CTRL write while not BUSY is the step it takes. -/
theorem step_ctrlWrite {es : List HostEvent} (hi : s.inbox = .regWrite 4 0 v :: es) (hb : s.busy = false) :
    step s = .next (regUpdate 0x00#32 v { s with inbox := es }) := step_regWrite_not_busy hi rfl hb

/-- OP = 10 is a decode start (R12). -/
theorem regUpdate_ctrl_decode (h : v.extractLsb' 0 2 = 0b10#2) : regUpdate 0x00#32 v s = decodeStart s := by
  show ctrlWrite v s = decodeStart s
  simp [ctrlWrite, h]

/-- OP = 11 is a bad request (R115). -/
theorem regUpdate_ctrl_reserved (h : v.extractLsb' 0 2 = 0b11#2) :
    regUpdate 0x00#32 v s = raiseError .badRequest s := by
  show ctrlWrite v s = raiseError .badRequest s
  simp [ctrlWrite, h]

/-- A start raises an error with a code other than None, or it does not end in ERROR (R81, R94, R115). -/
theorem start_raises_or_leaves_error (h : v.extractLsb' 0 2 ≠ 0b00#2) :
    (∃ c, c ≠ .none ∧ regUpdate 0x00#32 v s = raiseError c s) ∨ (regUpdate 0x00#32 v s).fsm ≠ .error := by
  obtain hop | hop | hop | hop := op_cases (v.extractLsb' 0 2)
  · exact absurd hop h
  · rw [regUpdate_ctrl_encode hop]
    obtain failed | ⟨-, -, -, accepted⟩ := encodeStart_cases s
    · exact .inl failed
    · rw [accepted]; exact .inr nofun
  · rw [regUpdate_ctrl_decode hop]
    obtain failed | ⟨-, -, -, accepted⟩ := decodeStart_cases s
    · exact .inl failed
    · rw [accepted]; exact .inr nofun
  · exact .inl ⟨.badRequest, nofun, regUpdate_ctrl_reserved hop⟩

end

/-- Settles O31: the write is `raiseError .badRequest`, and the three reads are of the registers it sets. -/
theorem reservedCommandIsABadRequest : Obligations.ReservedCommandIsABadRequest := by
  intro s v es hi hb hop
  refine ⟨_, step_ctrlWrite hi hb, ?_⟩
  rw [regUpdate_ctrl_reserved hop]
  exact ⟨rfl, rfl, statusWord_eq _, rfl⟩

/-- Settles O32: a start that ends in ERROR is a `raiseError`, whose three writes are all it does. -/
theorem failedStartChangesThreeRegisters : Obligations.FailedStartChangesThreeRegisters := by
  rintro s t - es hi ⟨v, rfl, hop⟩ hb ht hf
  cases (step_ctrlWrite hi hb).symm.trans ht
  obtain ⟨c, hc, failed⟩ | accepted := start_raises_or_leaves_error (s := { s with inbox := es }) hop
  · rw [failed]
    exact ⟨hc, rfl⟩
  · exact absurd hf accepted

/-! ### What IDLE, DONE and ERROR keep -/

/-- Settles O34: the core's own step waits outside an operation. -/
theorem nothingHappensWhileNotBusy : Obligations.NothingHappensWhileNotBusy := by
  refine fun s hb => ⟨fun hi => ?_, fun es hi => ?_⟩
  · rw [step_core hi, coreStep_waiting hb]
  · rw [step_host hi]
    exact coreStep_waiting (s := { s with inbox := es }) hb

/-- A register write that is no start leaves FSM, ERR_CODE and `wp` (R12, R119). -/
theorem regUpdate_of_no_start {off v : Word} (h : off = 0x00#32 → v.extractLsb' 0 2 = 0b00#2) (s : State) :
    (regUpdate off v s).fsm = s.fsm ∧ (regUpdate off v s).errCode = s.errCode ∧ (regUpdate off v s).wp = s.wp := by
  by_cases h0 : off = 0x00#32
  · rw [h0, regUpdate_ctrl_none (h h0)]
    exact ⟨rfl, rfl, rfl⟩
  · obtain ⟨w, ht, c, cs, d, l, heq⟩ := regUpdate_of_ne h0 v s
    rw [heq]
    exact ⟨rfl, rfl, rfl⟩

/-- Settles O33, by the host's next action: only a register write needs an argument. -/
theorem onlyAStartOrResetLeavesDoneAndError : Obligations.OnlyAStartOrResetLeavesDoneAndError := by
  intro s t hb ht hno
  cases hi : s.inbox with
  | nil =>
    rw [step_core hi, coreStep_waiting hb] at ht
    cases ht
    exact ⟨rfl, rfl, rfl⟩
  | cons e es =>
    obtain ⟨hreset, hstart⟩ := hno e es hi
    cases e with
    | wait =>
      rw [step_host hi] at ht
      cases (coreStep_waiting (s := { s with inbox := es }) hb).symm.trans ht
      exact ⟨rfl, rfl, rfl⟩
    | reset => exact absurd rfl hreset
    | regRead size off =>
      by_cases ha : size = 4 ∧ off.toNat % 4 = 0
      · cases (step_regRead_legal hi ha).symm.trans ht
        exact ⟨rfl, rfl, rfl⟩
      · cases (step_regRead_refused hi ha).symm.trans ht
    | regWrite size off v =>
      by_cases ha : size = 4 ∧ off.toNat % 4 = 0
      · obtain ⟨rfl, ha⟩ := ha
        cases (step_regWrite_not_busy hi ha hb).symm.trans ht
        refine regUpdate_of_no_start (fun h0 => ?_) { s with inbox := es }
        by_contra hop
        exact hstart ⟨v, h0 ▸ rfl, hop⟩
      · cases (step_regWrite_refused hi ha).symm.trans ht
    | srcRead a =>
      rw [step_srcRead hi, hb] at ht
      cases ht
      exact ⟨rfl, rfl, rfl⟩
    | srcWrite a v =>
      cases (step_srcWrite_not_busy hi hb).symm.trans ht
      exact ⟨rfl, rfl, rfl⟩
    | dstRead a =>
      rw [step_dstRead hi, hb] at ht
      cases ht
      exact ⟨rfl, rfl, rfl⟩

end Sys2Proof.Proofs.Exceptions
end

section
/-! PROOF. Reset: what it shows the host and what it leaves of the memories (O40), and that `State.reset` meets the invariant (O42). -/

namespace Sys2Proof.Proofs.Reset

open Sys2Proof.Machine Sys2Proof.Safety Sys2Proof.Proofs.Invariant Sys2Proof.Proofs.Registers

/-! ### What a cut operation may have written (93 S3) -/

/-- Outside an operation nothing is cut. -/
theorem cutBound_of_not_busy {s : State} (hb : s.busy = false) : cutBound s = 0 := by
  unfold State.busy at hb
  cases hf : s.fsm with
  | idle | done | error => rw [cutBound, hf]
  | eHdr | ePix | eEnd | dPix => rw [hf] at hb; cases hb

/-- A decode writes N pixels of OC bytes. -/
theorem cutBound_of_dPix {s : State} (hf : s.fsm = .dPix) : cutBound s = s.n.toNat * s.oc.toNat := by
  rw [cutBound, hf]

/-- In every state but the decoder's the bound is at most an encode's. -/
theorem cutBound_le_of_ne_dPix {s : State} (hf : s.fsm ≠ .dPix) : cutBound s ≤ 5 * s.n.toNat + 22 := by
  cases h : s.fsm with
  | eHdr | ePix | eEnd => rw [cutBound, h]
  | idle | done | error => rw [cutBound, h]; exact Nat.zero_le _
  | dPix => exact absurd h hf

/-! ### The state after a reset -/

/-- After a reset the host reads 0 at every offset (R127): STATUS is IDLE's, and every other register is 0. -/
theorem regValue_resetMachine (s : State) (off : Word) : regValue (resetMachine s) off = 0 := by
  have hstatus : (resetMachine s).statusWord = 0 := statusWord_eq _
  unfold regValue
  rw [hstatus]
  split_ifs <;> rfl

/-- A reset leaves the DST bytes from the cut operation's bound on. -/
theorem get_dst_resetMachine {s : State} {a : Nat} (h : cutBound s ≤ a) : (resetMachine s).dst.get a = s.dst.get a := by
  have hbound : ¬ a < min (cutBound s) Config.addressSpace := by omega
  exact (DstMemory.get_cutBelow _ _ _ a).trans (if_neg hbound)

/-- Settles O40: the step is `resetMachine`, and each of the three cases puts the address at or above the cut's bound. -/
theorem resetInAnyState : Obligations.ResetInAnyState := by
  intro s es hi
  refine ⟨resetMachine { s with inbox := es }, step_host hi, rfl, rfl, rfl, rfl, rfl, rfl, rfl, rfl, rfl,
    regValue_resetMachine _, rfl, rfl, rfl, rfl, fun a ha => get_dst_resetMachine ?_⟩
  show cutBound s ≤ a
  obtain hb | ⟨hf, ha⟩ | ⟨hf, ha⟩ := ha
  · exact cutBound_of_not_busy hb ▸ Nat.zero_le a
  · exact cutBound_of_dPix hf ▸ ha
  · exact (cutBound_le_of_ne_dPix hf).trans ha

/-- Settles O42: the state right after reset is not BUSY, and both its memories are empty, which is canonical. -/
theorem resetMeetsTheInvariant : Obligations.ResetMeetsTheInvariant :=
  inv_of_not_busy rfl rfl rfl

end Sys2Proof.Proofs.Reset
end

section
/-! PROOF. The spec's example words, read back as encodings (O5). -/

namespace Sys2Proof.Proofs.ExampleWords

open Sys2Proof.Proofs.Encoding

/-- Bytes that are a well-formed instruction's encoding are read as that instruction, with nothing left over. -/
theorem decode_of_encode_eq {i : Instr} {bs : List Byte} (hwf : i.wf = true) (henc : encode i = bs) :
    decode bs = .ok (i, []) := by
  have hdec := decodeInvertsEncode i [] hwf
  rwa [List.append_nil, henc] at hdec

/-- Settles O5: each word is the encoding of the instruction it stands for, whose operands are in range. -/
theorem exampleWordsDecode : Obligations.ExampleWordsDecode :=
  ⟨decode_of_encode_eq rfl rfl, decode_of_encode_eq rfl rfl, decode_of_encode_eq rfl rfl,
    decode_of_encode_eq (by decide) (by decide), decode_of_encode_eq (by decide) (by decide),
    decode_of_encode_eq (by decide) (by decide)⟩

end Sys2Proof.Proofs.ExampleWords
end

section
/-! PROOF. The state right after reset, as the host sees it (O41). -/

namespace Sys2Proof.Proofs.ResetState

open Sys2Proof.Machine Sys2Proof.Proofs.Reset

/-- `State.reset` and what a reset event makes of it differ only in what no register offset shows (R127). -/
theorem regValue_reset_eq_resetMachine (off : Word) :
    regValue State.reset off = regValue (resetMachine State.reset) off := rfl

/-- Settles O41: the host reads at every offset what it reads after a reset event, and that is 0. -/
theorem resetStateShowsZero : Obligations.ResetStateShowsZero := by
  have hregs (off : Word) : regValue State.reset off = 0 :=
    (regValue_reset_eq_resetMachine off).trans (regValue_resetMachine State.reset off)
  exact ⟨rfl, hregs, rfl, rfl, rfl⟩

end Sys2Proof.Proofs.ResetState
end
